-- ==== Sys2Proof/Word.lean ====
section
/-! DEFINITION. The word types of TWE: bytes and access words (00_scope.md R7, R8; 30_encoding.md R70). -/

namespace Sys2Proof

/-- `DATA_W` = 8: the width of every register, of every bus byte and of the checksum (00_scope.md R7). -/
abbrev Byte := BitVec 8

/-- The access word `W ++ OFF ++ D`, 12 bits (30_encoding.md R70). -/
abbrev AccessWord := BitVec 12

/-- A register offset, 0x0 to 0x7 (20_memory.md R50). -/
abbrev Offset := BitVec 3

/-- A CTRL command code, `D[2:0]` of a CTRL write (30_encoding.md R75). -/
abbrev Code := BitVec 3

/-- `ADDR_W` = 7: a bus device address (00_scope.md R7; 10_state.md R39). -/
abbrev DeviceAddr := BitVec 7

end Sys2Proof
end

