-- ==== Sys2Proof/Machine/Bus.lean ====
section
/-! DEFINITION. The vocabulary of the world around the block: phases, acknowledge bits, bus events
(20_memory.md R63), host bus accesses (00_scope.md R10) and turns (20_memory.md R57). -/

namespace Sys2Proof.Machine

/-- `PHASE`: the kind of the phase in flight, or `NONE` (10_state.md R30). -/
inductive Phase where
  | none | start | stop | write | readAck | readNack
deriving DecidableEq, Repr

/-- The acknowledge bit (00_scope.md R11, R15). -/
inductive Ack where
  | ack | nack
deriving DecidableEq, Repr, Inhabited

/-- A bus event of the history `H` (20_memory.md R63). -/
inductive BusEvent where
  /-- A START phase completed with no transaction open. -/
  | start
  /-- A START phase completed with a transaction open. -/
  | repStart
  /-- A STOP phase completed. -/
  | stop
  /-- A WRITE phase completed: the byte sent and the remote side's answer. -/
  | write (b : Byte) (a : Ack)
  /-- A READ phase completed: the byte received and the answer the engine sent. -/
  | read (b : Byte) (a : Ack)
  /-- The block was reset (70_reset_and_hazards.md R250). -/
  | reset
deriving DecidableEq, Repr

/-- What the remote side answers at a completion: `draw_ack()` and `draw_byte()`. Free inputs of the
completion step, under no law (00_scope.md R11; 20_memory.md R64; log 9). A WRITE uses `ack`, a read
phase uses `byte`; the other answer goes unused. -/
structure Draw where
  ack : Ack
  byte : Byte
deriving DecidableEq, Repr, Inhabited

/-- An access on the host's bus: `MemWrite(addr, width, value)` or `MemRead(addr, width)`
(00_scope.md R10). `value` is the first byte written; an access of any other width than 1 is refused
whatever it carries (20_memory.md R51). -/
structure BusAccess where
  isWrite : Bool
  addr : Nat
  width : Nat
  value : Byte
deriving DecidableEq, Repr, Inhabited

/-- What one agent does at its turn (00_scope.md R14). -/
inductive Action where
  /-- The host makes a one-byte access to the window, by its access word (30_encoding.md R70, R71). -/
  | access (w : AccessWord)
  /-- The host makes an access on its bus, by address and width (20_memory.md R50, R51). -/
  | bus (a : BusAccess)
  /-- The engine may complete the phase in flight, with these answers (40_bus_commands.md R108). -/
  | engine (d : Draw)
  /-- No agent acts: the host waits, and a phase in flight stays in flight (R109). -/
  | idle
deriving DecidableEq, Repr, Inhabited

/-- One instant: what would happen at it, and whether reset is asserted at it. Reset takes precedence
over the action of the same instant (70_reset_and_hazards.md R250; log 7). -/
structure Turn where
  reset : Bool
  action : Action
deriving DecidableEq, Repr, Inhabited

end Sys2Proof.Machine
end

