-- ==== Sys2Proof/Machine/Operands.lean ====
section
/-! DEFINITION. The operand forms: the fields of an access word (30_encoding.md R70, R72), the command
codes (R75) and the address byte of a transaction (44_bus_transactions.md R210). -/

namespace Sys2Proof.Machine

/-- `W`, bit 11: a host write (30_encoding.md R70). -/
def wField (w : AccessWord) : Bool := w.getLsbD 11

/-- `OFF`, bits 10:8 (R70). -/
def offField (w : AccessWord) : Offset := w.extractLsb' 8 3

/-- `D`, bits 7:0 (R70). -/
def dField (w : AccessWord) : Byte := w.extractLsb' 0 8

/-- `W ++ OFF ++ D` (R70). -/
def accessWord (isWrite : Bool) (off : Offset) (d : Byte) : AccessWord := BitVec.ofBool isWrite ++ off ++ d

/-- The operand `CMD` of a CTRL write, `D[2:0]` (R72). -/
def cmdField (d : Byte) : Code := d.extractLsb' 0 3

/-- The operand `C_ERR` of a STATUS write, `D[4]` (R72). -/
def clearsErr (d : Byte) : Bool := d.getLsbD 4

/-- The operand `C_WCOL` of a STATUS write, `D[5]` (R72). -/
def clearsWcol (d : Byte) : Bool := d.getLsbD 5

/-- The operand `INIT` of a CRC_CTRL write, `D[0]` (R72). -/
def initField (d : Byte) : Bool := d.getLsbD 0

/-- The operand `o` of the reserved offsets, `OFF[2]` (R72). -/
def oField (off : Offset) : BitVec 1 := off.extractLsb' 2 1

/-- The operand `c` of a reserved command code, `D[0]` (40_bus_commands.md R107). -/
def cField (d : Byte) : BitVec 1 := d.extractLsb' 0 1

/-- The reserved offset that `o` stands for: 0x3 or 0x7 (30_encoding.md R72). -/
def rsvOffset (o : BitVec 1) : Offset := o ++ 0b11#2

/-- The reserved command code with low bit `c`: 0b110 or 0b111 (30_encoding.md R75). -/
def rsvCode (c : BitVec 1) : Code := 0b11#2 ++ c

/-- The reserved command codes, 0b110 and 0b111 (30_encoding.md R75). -/
def reservedCode (c : Code) : Bool := c == 0b110#3 || c == 0b111#3

/-- The commands that need an open transaction: STOP, WRITE, READ_ACK, READ_NACK (30_encoding.md R75). -/
def needsOpen (c : Code) : Bool := c == 0b010#3 || c == 0b011#3 || c == 0b100#3 || c == 0b101#3

/-- `kind(c)`: the phase that an accepted command code requests (30_encoding.md R75). -/
def kind (c : Code) : Phase :=
  if c = 0b001#3 then .start
  else if c = 0b010#3 then .stop
  else if c = 0b011#3 then .write
  else if c = 0b100#3 then .readAck
  else if c = 0b101#3 then .readNack
  else .none

/-- The address byte that addresses a device for a write: `(A << 1) | 0` (44_bus_transactions.md R210;
from general knowledge there, log 20). -/
def addrW (a : DeviceAddr) : Byte := a ++ 0b0#1

/-- The address byte that addresses a device for a read: `(A << 1) | 1` (R210; log 20). -/
def addrR (a : DeviceAddr) : Byte := a ++ 0b1#1

end Sys2Proof.Machine
end

