-- ==== Sys2Proof/Syntax.lean ====
section
/-! DEFINITION. The instructions of TWE: one constructor for each row of spec/opcode_table.json
(30_encoding.md R73). A constructor holds the operands R72 gives its row and no ignored bit (R77). -/

namespace Sys2Proof

/-- One host access to TWE, by its row (30_encoding.md R73). -/
inductive Instr where
  /-- CTRL write, code 0b000 (40_bus_commands.md R101). -/
  | nop
  /-- CTRL write, code 0b001 (R102). -/
  | start
  /-- CTRL write, code 0b010 (R103). -/
  | stop
  /-- CTRL write, code 0b011 (R104). -/
  | write
  /-- CTRL write, code 0b100 (R105). -/
  | readAck
  /-- CTRL write, code 0b101 (R106). -/
  | readNack
  /-- CTRL write, reserved code 0b11c; `c` is the low bit of the code (R107). -/
  | cmdRsv (c : BitVec 1)
  /-- STATUS write; bits 4 and 5 of `imm8` act (41_register_access.md R142). -/
  | wrStatus (imm8 : Byte)
  /-- DATA write (R143). -/
  | wrData (imm8 : Byte)
  /-- Write of a reserved offset: 0x3 when `o` = 0, 0x7 when `o` = 1 (R146). -/
  | wrRsv (o : BitVec 1) (imm8 : Byte)
  /-- CRC_CTRL write with `D[0]` = 0 (43_crc.md R193). -/
  | crcCtrlNop
  /-- CRC_CTRL write with `D[0]` = 1 (R192). -/
  | crcInit
  /-- CRC_DATA write (R195). -/
  | crcFeed (imm8 : Byte)
  /-- CRC_ACC write, ignored (R198). -/
  | wrCrcAcc (imm8 : Byte)
  /-- CTRL read (41_register_access.md R140). -/
  | rdCtrl
  /-- STATUS read (R141). -/
  | rdStatus
  /-- DATA read (R144). -/
  | rdData
  /-- Read of a reserved offset: 0x3 when `o` = 0, 0x7 when `o` = 1 (R145). -/
  | rdRsv (o : BitVec 1)
  /-- CRC_CTRL read (43_crc.md R194). -/
  | rdCrcCtrl
  /-- CRC_DATA read (R196). -/
  | rdCrcData
  /-- CRC_ACC read (R197). -/
  | rdCrcAcc
deriving DecidableEq, Repr

end Sys2Proof
end

