-- ==== Sys2Proof/Decode.lean ====
section
/-! DEFINITION. Decoding and encoding of access words (30_encoding.md), and the opcode map (R73) as a
table beside them. -/

namespace Sys2Proof

open Machine

/-- The row of a CTRL write, by its command code (30_encoding.md R75). -/
def decodeCtrl (d : Byte) : Instr :=
  match (cmdField d).toNat with
  | 0 => .nop
  | 1 => .start
  | 2 => .stop
  | 3 => .write
  | 4 => .readAck
  | 5 => .readNack
  | _ => .cmdRsv (cField d)

/-- The row of a host write, by its offset (20_memory.md R50); 0x3 and 0x7 are the reserved offsets. -/
def decodeWrite (off : Offset) (d : Byte) : Instr :=
  match off.toNat with
  | 0 => decodeCtrl d
  | 1 => .wrStatus d
  | 2 => .wrData d
  | 4 => if initField d then .crcInit else .crcCtrlNop
  | 5 => .crcFeed d
  | 6 => .wrCrcAcc d
  | _ => .wrRsv (oField off) d

/-- The row of a host read, by its offset (20_memory.md R50); 0x3 and 0x7 are the reserved offsets. -/
def decodeRead (off : Offset) : Instr :=
  match off.toNat with
  | 0 => .rdCtrl
  | 1 => .rdStatus
  | 2 => .rdData
  | 4 => .rdCrcCtrl
  | 5 => .rdCrcData
  | 6 => .rdCrcAcc
  | _ => .rdRsv (oField off)

/-- The decoder. "The decoder is total: no access word is illegal, and none traps" (30_encoding.md R73). -/
def decode (w : AccessWord) : Instr :=
  if wField w then decodeWrite (offField w) (dField w) else decodeRead (offField w)

/-- Why a number is no encoding of a host access. -/
inductive DecodeError where
  /-- The number does not fit in an access word's 12 bits (30_encoding.md R70, R79). -/
  | widerThanAccessWord (n : Nat)
deriving DecidableEq, Repr

/-- The access word that a number stands for: its 12 bits, or a rejection by name (log 13). -/
def wordOfNat (n : Nat) : Except DecodeError AccessWord :=
  if n < 4096 then .ok (BitVec.ofNat 12 n) else .error (.widerThanAccessWord n)

/-- The instruction that the low `nbits` bits of `w` encode: the host's question to the decoder. -/
def decodeTableWord (nbits w : Nat) : Option Instr :=
  match wordOfNat (w % 2 ^ nbits) with
  | .ok word => some (decode word)
  | .error _ => none

/-- The encoder: the row's match with the operand inserted and 0 in every ignored bit that is no part of an
operand. The operand of WR_STATUS is its whole byte, "access word `0x900 | imm8`" (41_register_access.md
R142); the word that an assembler writes for it is `assemble` (log 14). -/
def encode : Instr → AccessWord
  | .nop => accessWord true 0x0#3 0b00000000#8
  | .start => accessWord true 0x0#3 0b00000001#8
  | .stop => accessWord true 0x0#3 0b00000010#8
  | .write => accessWord true 0x0#3 0b00000011#8
  | .readAck => accessWord true 0x0#3 0b00000100#8
  | .readNack => accessWord true 0x0#3 0b00000101#8
  | .cmdRsv c => accessWord true 0x0#3 (0b00000#5 ++ rsvCode c)
  | .wrStatus imm8 => accessWord true 0x1#3 imm8
  | .wrData imm8 => accessWord true 0x2#3 imm8
  | .wrRsv o imm8 => accessWord true (rsvOffset o) imm8
  | .crcCtrlNop => accessWord true 0x4#3 0b00000000#8
  | .crcInit => accessWord true 0x4#3 0b00000001#8
  | .crcFeed imm8 => accessWord true 0x5#3 imm8
  | .wrCrcAcc imm8 => accessWord true 0x6#3 imm8
  | .rdCtrl => accessWord false 0x0#3 0x00#8
  | .rdStatus => accessWord false 0x1#3 0x00#8
  | .rdData => accessWord false 0x2#3 0x00#8
  | .rdRsv o => accessWord false (rsvOffset o) 0x00#8
  | .rdCrcCtrl => accessWord false 0x4#3 0x00#8
  | .rdCrcData => accessWord false 0x5#3 0x00#8
  | .rdCrcAcc => accessWord false 0x6#3 0x00#8

/-- The access with 0 in every ignored bit of its operands: bits 7:6 and 3:0 of a STATUS write's byte
(30_encoding.md R72, R77). No other operand of `Instr` holds an ignored bit. -/
def Instr.clearIgnored : Instr → Instr
  | .nop => .nop
  | .start => .start
  | .stop => .stop
  | .write => .write
  | .readAck => .readAck
  | .readNack => .readNack
  | .cmdRsv c => .cmdRsv c
  | .wrStatus imm8 => .wrStatus (imm8 &&& 0b00110000#8)
  | .wrData imm8 => .wrData imm8
  | .wrRsv o imm8 => .wrRsv o imm8
  | .crcCtrlNop => .crcCtrlNop
  | .crcInit => .crcInit
  | .crcFeed imm8 => .crcFeed imm8
  | .wrCrcAcc imm8 => .wrCrcAcc imm8
  | .rdCtrl => .rdCtrl
  | .rdStatus => .rdStatus
  | .rdData => .rdData
  | .rdRsv o => .rdRsv o
  | .rdCrcCtrl => .rdCrcCtrl
  | .rdCrcData => .rdCrcData
  | .rdCrcAcc => .rdCrcAcc

/-- The assembler: "the row's match with the operand bits inserted, and 0 in every x bit" of its pattern
(30_encoding.md R80). -/
def assemble (i : Instr) : AccessWord := encode i.clearIgnored

/-- The row's mnemonic, as spec/opcode_table.json spells it. -/
def mnemonic : Instr → String
  | .nop => "NOP"
  | .start => "START"
  | .stop => "STOP"
  | .write => "WRITE"
  | .readAck => "READ_ACK"
  | .readNack => "READ_NACK"
  | .cmdRsv _ => "CMD_RSV"
  | .wrStatus _ => "WR_STATUS"
  | .wrData _ => "WR_DATA"
  | .wrRsv _ _ => "WR_RSV"
  | .crcCtrlNop => "CRC_CTRL_NOP"
  | .crcInit => "CRC_INIT"
  | .crcFeed _ => "CRC_FEED"
  | .wrCrcAcc _ => "WR_CRC_ACC"
  | .rdCtrl => "RD_CTRL"
  | .rdStatus => "RD_STATUS"
  | .rdData => "RD_DATA"
  | .rdRsv _ => "RD_RSV"
  | .rdCrcCtrl => "RD_CRC_CTRL"
  | .rdCrcData => "RD_CRC_DATA"
  | .rdCrcAcc => "RD_CRC_ACC"

/-- A row of the opcode map (30_encoding.md R73). -/
structure Row where
  mnemonic : String
  word : AccessWord
  mask : AccessWord
deriving DecidableEq, Repr

/-- `(w & mask) == match` (30_encoding.md R73). -/
def Row.covers (r : Row) (w : AccessWord) : Bool := w &&& r.mask == r.word

/-- The opcode map, copied row for row from 30_encoding.md R73. `decode` does not read it: that the two
agree is a statement. -/
def opcodeMap : List Row :=
  [ ⟨"NOP", 0x800#12, 0xF07#12⟩, ⟨"START", 0x801#12, 0xF07#12⟩, ⟨"STOP", 0x802#12, 0xF07#12⟩,
    ⟨"WRITE", 0x803#12, 0xF07#12⟩, ⟨"READ_ACK", 0x804#12, 0xF07#12⟩, ⟨"READ_NACK", 0x805#12, 0xF07#12⟩,
    ⟨"CMD_RSV", 0x806#12, 0xF06#12⟩, ⟨"WR_STATUS", 0x900#12, 0xF00#12⟩, ⟨"WR_DATA", 0xA00#12, 0xF00#12⟩,
    ⟨"WR_RSV", 0xB00#12, 0xB00#12⟩, ⟨"CRC_CTRL_NOP", 0xC00#12, 0xF01#12⟩, ⟨"CRC_INIT", 0xC01#12, 0xF01#12⟩,
    ⟨"CRC_FEED", 0xD00#12, 0xF00#12⟩, ⟨"WR_CRC_ACC", 0xE00#12, 0xF00#12⟩ ] ++
  [ ⟨"RD_CTRL", 0x000#12, 0xF00#12⟩, ⟨"RD_STATUS", 0x100#12, 0xF00#12⟩, ⟨"RD_DATA", 0x200#12, 0xF00#12⟩,
    ⟨"RD_RSV", 0x300#12, 0xB00#12⟩, ⟨"RD_CRC_CTRL", 0x400#12, 0xF00#12⟩, ⟨"RD_CRC_DATA", 0x500#12, 0xF00#12⟩,
    ⟨"RD_CRC_ACC", 0x600#12, 0xF00#12⟩ ]

end Sys2Proof
end

