-- ==== Sys2Proof/Machine/State.lean ====
section
/-! DEFINITION. The state of TWE (10_state.md R20), the model's own fields beside it, the reasons a step
can stop, and the state right after reset (70_reset_and_hazards.md R250). -/

namespace Sys2Proof.Machine

/-- The state. The fields up to `hist` are the spec's: "The state of TWE is exactly the following"
(10_state.md R20). `reads`, `agenda` and `steps` are the model's own (logs 1, 3, 4). -/
structure State where
  /-- `CTRL.CMD`, the last accepted command (R21). -/
  cmd : Code
  /-- `STATUS.DONE`, the completion flag (R22). -/
  done : Bool
  /-- `STATUS.BUSY` (R23). -/
  busy : Bool
  /-- `STATUS.OPEN`: a transaction is open on the bus (R24). -/
  opened : Bool
  /-- `STATUS.NACK` (R25). -/
  nack : Bool
  /-- `STATUS.ERR`, sticky command error (R26). -/
  err : Bool
  /-- `STATUS.WCOL`, sticky write collision (R27). -/
  wcol : Bool
  /-- `DATA` (R29). -/
  data : Byte
  /-- `PHASE`, hidden (R30). -/
  phase : Phase
  /-- `CRC_ACC` (R31). -/
  crcAcc : Byte
  /-- `H`, the bus event history, oldest event first (R40). -/
  hist : List BusEvent
  /-- The bytes the host's reads have returned, oldest first. The model's own (log 3). -/
  reads : List Byte
  /-- The scripted turns still to come, the next one first. The model's own (log 1). -/
  agenda : List Turn
  /-- How many steps have been taken. The model's own (log 4). -/
  steps : Nat
deriving DecidableEq, Repr

/-- TWE has no fault outcome: "every byte access to the block has a defined result" (00_scope.md R12;
60_exceptions.md R231). So no reason for a fault exists, which is exact (log 15). -/
inductive Fault : Type
deriving DecidableEq, Repr

/-- Why a step can be refused. -/
inductive Refusal where
  /-- An instruction without a meaning in this model. No arm of `exec` answers it; safe. -/
  | notModelled (mnemonic : String)
  /-- Raised by a host access to the window whose width is not one byte (20_memory.md R51). Safe: the
  spec itself refuses the run, and no claim can be proved of it. -/
  | accessWidth (width : Nat)
deriving DecidableEq, Repr

/-- Right after reset: every register as 10_state.md R20 and 70_reset_and_hazards.md R250 say, and the
history of a block that has been reset once since launch (log 5). The model's own fields start empty
(logs 1, 3, 4). -/
def State.reset : State where
  cmd := 0b000#3
  done := false
  busy := false
  opened := false
  nack := false
  err := false
  wcol := false
  data := 0x00#8
  phase := Phase.none
  crcAcc := 0x00#8
  hist := [BusEvent.reset]
  reads := []
  agenda := []
  steps := 0

end Sys2Proof.Machine
end

