-- ==== Sys2Proof/Config.lean ====
section
/-! DEFINITION. The open parameters (00_scope.md R7) and the free values. Each is an uninterpreted
constant: no proof can see its value. The fixed parameters `CRC_POLY`, `CRC_SEED` stand beside the
function that uses them, in Machine/Crc8.lean. -/

namespace Sys2Proof.Config

/-- `BASE`: the address of offset 0x0 in the host's address space, OPEN (00_scope.md R7; log 12). -/
opaque base : Nat

/-- `DISPLAY_ADDR`: the display controller's bus address, OPEN (00_scope.md R7). -/
opaque displayAddr : DeviceAddr

/-- `SENSOR_ADDR`: the sensor's bus address, OPEN (00_scope.md R7). -/
opaque sensorAddr : DeviceAddr

/-- `T_CONV`: the host's settle delay, OPEN, counted in turns at which no access happens
(44_bus_transactions.md R216; log 16). -/
opaque tConv : Nat

/-- The conversion of a humidity code to units: "quantity-specific offset and scale", with no values in the
source (44_bus_transactions.md R221; 91_not_in_source.md N16; log 25). -/
opaque humidity : BitVec 16 → Int

/-- The byte a DATA read returns while a phase is in flight: "any byte, unspecified; a fresh draw at
each read" (41_register_access.md R144). A free value, safe. It is applied to the whole state, which
no two successive reads share, so nothing relates one draw to another (log 8). -/
opaque unspecifiedByte : Machine.State → Byte

/-- What happens next when nothing is scripted: the host's next access, a completion and its answers, a
reset, or nothing. The host's program, the remote devices and the order of the agents are outside the
block (00_scope.md R14; 20_memory.md R57, R64), so this is free; safe. It is applied to the whole
state, whose step counter makes each call a new one (log 1). -/
opaque environment : Machine.State → Machine.Turn

end Sys2Proof.Config
end

