-- ==== Sys2Proof/Machine/Crc8.lean ====
section
/-! DEFINITION. The CRC-8 function (43_crc.md R190, R191) and its fixed parameters (00_scope.md R7). -/

namespace Sys2Proof.Machine

/-- `CRC_POLY` (00_scope.md R7). -/
def crcPoly : Byte := 0x31#8

/-- `CRC_SEED` (00_scope.md R7). -/
def crcSeed : Byte := 0x00#8

/-- One iteration: "if the top bit is set, shift left and XOR the polynomial, else just shift left"
(43_crc.md R190). -/
def crcShift (v : Byte) : Byte := if v.getLsbD 7 then (v <<< 1) ^^^ crcPoly else v <<< 1

/-- `n` iterations of `crcShift`. -/
def crcShifts : Nat → Byte → Byte
  | 0, v => v
  | n + 1, v => crcShifts n (crcShift v)

/-- `crc8_step(a, b)`: XOR the byte into the running value, then 8 iterations (43_crc.md R190). -/
def crc8Step (a b : Byte) : Byte := crcShifts 8 (a ^^^ b)

/-- The fold of `crc8_step` over bytes, from a running value (43_crc.md R191, R200 law 4). -/
def crcFold (a : Byte) (bytes : List Byte) : Byte := bytes.foldl crc8Step a

/-- `compute(bytes)`: the fold from the seed (43_crc.md R191). -/
def crcCompute (bytes : List Byte) : Byte := crcFold crcSeed bytes

end Sys2Proof.Machine
end

