-- ==== Sys2Proof/Machine/Flags.lean ====
section
/-! DEFINITION. The bytes CTRL and STATUS read as, and the write-1-to-clear of STATUS
(10_state.md R21 to R28). -/

namespace Sys2Proof.Machine

/-- STATUS reads as `0b00 ++ WCOL ++ ERR ++ NACK ++ OPEN ++ BUSY ++ DONE` (10_state.md R28). -/
def statusByte (s : State) : Byte :=
  0b00#2 ++ BitVec.ofBool s.wcol ++ BitVec.ofBool s.err ++ BitVec.ofBool s.nack ++
    BitVec.ofBool s.opened ++ BitVec.ofBool s.busy ++ BitVec.ofBool s.done

/-- CTRL reads as the last accepted command, bits 7:3 as 0 (10_state.md R21; 41_register_access.md R140). -/
def ctrlByte (s : State) : Byte := s.cmd.zeroExtend 8

/-- Write 1 to clear ERR (bit 4) and WCOL (bit 5); every other bit is ignored (41_register_access.md
R142). -/
def clearFlags (d : Byte) (s : State) : State :=
  { s with err := s.err && !clearsErr d, wcol := s.wcol && !clearsWcol d }

end Sys2Proof.Machine
end

