-- ==== Sys2Proof/Machine/Ops.lean ====
section
/-! DEFINITION. The named operations over the state: what a host access does to a register, the engine's
completion step and reset. TWE raises no exception (60_exceptions.md R230, R234, R235), so there is no
exception entry and no return; the error paths are `reject` and `collide`. -/

namespace Sys2Proof.Machine

/-- `emit(e)`: append an event to `H` (00_scope.md R11). -/
def emit (e : BusEvent) (s : State) : State := { s with hist := s.hist ++ [e] }

/-- A read returns `v` to the host and changes nothing of the block (20_memory.md R55; log 3). -/
def answer (v : Byte) (s : State) : State := { s with reads := s.reads ++ [v] }

/-- `reject()`: "the command completes at once, with no bus effect" (40_bus_commands.md R100). -/
def reject (s : State) : State := { s with err := true, done := true }

/-- A CTRL or DATA write while a phase is in flight: the write is ignored (40_bus_commands.md R100;
41_register_access.md R143). -/
def collide (s : State) : State := { s with wcol := true }

/-- The engine accepts command `c` (40_bus_commands.md R100). -/
def accept (c : Code) (s : State) : State :=
  { s with cmd := c, phase := kind c, busy := true, done := false }

/-- Every host write to CTRL, by its command code. The order of the tests is the rule's
(40_bus_commands.md R100; 60_exceptions.md R233). -/
def ctrlWrite (c : Code) (s : State) : State :=
  if s.busy then collide s
  else if c = 0b000#3 then s
  else if reservedCode c then reject s
  else if needsOpen c && !s.opened then reject s
  else accept c s

/-- A host write to DATA (41_register_access.md R143). -/
def dataWrite (d : Byte) (s : State) : State := if s.busy then collide s else { s with data := d }

/-- The byte a host read of DATA returns (41_register_access.md R144). -/
def dataByte (s : State) : Byte := if s.busy then Config.unspecifiedByte s else s.data

/-- `CRC_ACC <- v` (43_crc.md R192, R195). -/
def setCrcAcc (v : Byte) (s : State) : State := { s with crcAcc := v }

/-- The end of every completion: PHASE, BUSY and DONE (40_bus_commands.md R108). -/
def finish (s : State) : State := { s with phase := .none, busy := false, done := true }

/-- The completion of a START phase, but for its end (R108). -/
def completeStart (s : State) : State :=
  { emit (if s.opened then .repStart else .start) s with opened := true, nack := false }

/-- The completion of a STOP phase, but for its end (R108). -/
def completeStop (s : State) : State := { emit .stop s with opened := false }

/-- The completion of a WRITE phase, but for its end (R108). -/
def completeWrite (a : Ack) (s : State) : State := { emit (.write s.data a) s with nack := decide (a = .nack) }

/-- The completion of a read phase, but for its end; `a` is the answer the engine sends (R108). -/
def completeRead (b : Byte) (a : Ack) (s : State) : State := { emit (.read b a) s with data := b }

/-- The engine's completion step with the remote side's answers `d`, "enabled only when PHASE != NONE"
(40_bus_commands.md R108). With no phase in flight the engine's turn passes and nothing changes
(log 6). -/
def complete (d : Draw) (s : State) : State :=
  match s.phase with
  | .none => s
  | .start => finish (completeStart s)
  | .stop => finish (completeStop s)
  | .write => finish (completeWrite d.ack s)
  | .readAck => finish (completeRead d.byte .ack s)
  | .readNack => finish (completeRead d.byte .nack s)

/-- `reset()`: every piece of state takes its reset value, a phase in flight is abandoned, and `H` gains
`Reset` (70_reset_and_hazards.md R250, R251). The world around the block is not reset. -/
def resetBlock (s : State) : State :=
  emit .reset
    { s with
      cmd := 0b000#3, done := false, busy := false, opened := false, nack := false, err := false,
      wcol := false, data := 0x00#8, phase := .none, crcAcc := 0x00#8 }

/-- The byte a host read of an offset returns: the read column of the register window
(20_memory.md R50). -/
def windowByte (off : Offset) (s : State) : Byte :=
  match off.toNat with
  | 0 => ctrlByte s
  | 1 => statusByte s
  | 2 => dataByte s
  | 6 => s.crcAcc
  | _ => 0x00#8

/-- A host write of a byte to an offset: the write column of the register window (20_memory.md R50). -/
def windowWrite (off : Offset) (d : Byte) (s : State) : State :=
  match off.toNat with
  | 0 => ctrlWrite (cmdField d) s
  | 1 => clearFlags d s
  | 2 => dataWrite d s
  | 4 => if initField d then setCrcAcc crcSeed s else s
  | 5 => setCrcAcc (crc8Step s.crcAcc d) s
  | _ => s

end Sys2Proof.Machine
end

