-- ==== Sys2Proof/Machine/Commands.lean ====
section
/-! DEFINITION. The meanings of the CTRL writes: the bus phase commands (40_bus_commands.md R101 to R107).
Each is the acceptance step of its command; the completion is `complete`, at a later turn (R108). -/

namespace Sys2Proof.Machine

/-- NOP (R101). -/
def execNop (s : State) : Host.Outcome State Fault Refusal := .next (ctrlWrite 0b000#3 s)

/-- START: a start, or a repeated start when a transaction is open (R102). -/
def execStart (s : State) : Host.Outcome State Fault Refusal := .next (ctrlWrite 0b001#3 s)

/-- STOP (R103). -/
def execStop (s : State) : Host.Outcome State Fault Refusal := .next (ctrlWrite 0b010#3 s)

/-- WRITE: send the byte in DATA (R104). -/
def execWrite (s : State) : Host.Outcome State Fault Refusal := .next (ctrlWrite 0b011#3 s)

/-- READ_ACK (R105). -/
def execReadAck (s : State) : Host.Outcome State Fault Refusal := .next (ctrlWrite 0b100#3 s)

/-- READ_NACK (R106). -/
def execReadNack (s : State) : Host.Outcome State Fault Refusal := .next (ctrlWrite 0b101#3 s)

/-- CMD_RSV: a reserved code; its low bit has no effect (R107). -/
def execCmdRsv (c : BitVec 1) (s : State) : Host.Outcome State Fault Refusal := .next (ctrlWrite (rsvCode c) s)

end Sys2Proof.Machine
end

