-- ==== Sys2Proof/Machine/Crc.lean ====
section
/-! DEFINITION. The meanings of the CRC unit's register accesses (43_crc.md R192 to R198). The unit is
independent of the engine: none of them looks at BUSY. -/

namespace Sys2Proof.Machine

/-- CRC_INIT: `CRC_ACC <- CRC_SEED` (R192). -/
def execCrcInit (s : State) : Host.Outcome State Fault Refusal := .next (setCrcAcc crcSeed s)

/-- CRC_CTRL_NOP: nothing changes (R193). -/
def execCrcCtrlNop (s : State) : Host.Outcome State Fault Refusal := .next s

/-- RD_CRC_CTRL: reads as 0x00 (R194). -/
def execRdCrcCtrl (s : State) : Host.Outcome State Fault Refusal := .next (answer 0x00#8 s)

/-- CRC_FEED: `CRC_ACC <- crc8_step(CRC_ACC, imm8)`, within this step (R195). -/
def execCrcFeed (imm8 : Byte) (s : State) : Host.Outcome State Fault Refusal :=
  .next (setCrcAcc (crc8Step s.crcAcc imm8) s)

/-- RD_CRC_DATA: reads as 0x00; "the fed bytes are not stored" (R196). -/
def execRdCrcData (s : State) : Host.Outcome State Fault Refusal := .next (answer 0x00#8 s)

/-- RD_CRC_ACC (R197). -/
def execRdCrcAcc (s : State) : Host.Outcome State Fault Refusal := .next (answer s.crcAcc s)

/-- WR_CRC_ACC: nothing changes; "CRC_ACC is read-only" (R198). -/
def execWrCrcAcc (_imm8 : Byte) (s : State) : Host.Outcome State Fault Refusal := .next s

end Sys2Proof.Machine
end

