-- ==== Sys2Proof/Machine/Registers.lean ====
section
/-! DEFINITION. The meanings of the engine's register reads and writes (41_register_access.md R140 to
R146). -/

namespace Sys2Proof.Machine

/-- RD_CTRL (R140). -/
def execRdCtrl (s : State) : Host.Outcome State Fault Refusal := .next (answer (ctrlByte s) s)

/-- RD_STATUS (R141). -/
def execRdStatus (s : State) : Host.Outcome State Fault Refusal := .next (answer (statusByte s) s)

/-- WR_STATUS: allowed while busy, and no collision (R142). -/
def execWrStatus (imm8 : Byte) (s : State) : Host.Outcome State Fault Refusal := .next (clearFlags imm8 s)

/-- WR_DATA (R143). -/
def execWrData (imm8 : Byte) (s : State) : Host.Outcome State Fault Refusal := .next (dataWrite imm8 s)

/-- RD_DATA: an unspecified byte while busy (R144; log 8). -/
def execRdData (s : State) : Host.Outcome State Fault Refusal := .next (answer (dataByte s) s)

/-- RD_RSV: reads as 0x00 at either reserved offset (R145). -/
def execRdRsv (_o : BitVec 1) (s : State) : Host.Outcome State Fault Refusal := .next (answer 0x00#8 s)

/-- WR_RSV: nothing changes, busy or not (R146). -/
def execWrRsv (_o : BitVec 1) (_imm8 : Byte) (s : State) : Host.Outcome State Fault Refusal := .next s

end Sys2Proof.Machine
end

