-- ==== Sys2Proof/Machine/Dispatch.lean ====
section
/-! DEFINITION. The meaning of each instruction: one arm for each constructor of Instr. -/

namespace Sys2Proof.Machine

/-- What one host access to the window does, in one atomic step (20_memory.md R57). -/
def exec (i : Instr) (s : State) : Host.Outcome State Fault Refusal :=
  match i with
  | .nop => Sys2Proof.Machine.execNop s
  | .start => Sys2Proof.Machine.execStart s
  | .stop => Sys2Proof.Machine.execStop s
  | .write => Sys2Proof.Machine.execWrite s
  | .readAck => Sys2Proof.Machine.execReadAck s
  | .readNack => Sys2Proof.Machine.execReadNack s
  | .cmdRsv c => Sys2Proof.Machine.execCmdRsv c s
  | .wrStatus imm8 => Sys2Proof.Machine.execWrStatus imm8 s
  | .wrData imm8 => Sys2Proof.Machine.execWrData imm8 s
  | .wrRsv o imm8 => Sys2Proof.Machine.execWrRsv o imm8 s
  | .crcCtrlNop => Sys2Proof.Machine.execCrcCtrlNop s
  | .crcInit => Sys2Proof.Machine.execCrcInit s
  | .crcFeed imm8 => Sys2Proof.Machine.execCrcFeed imm8 s
  | .wrCrcAcc imm8 => Sys2Proof.Machine.execWrCrcAcc imm8 s
  | .rdCtrl => Sys2Proof.Machine.execRdCtrl s
  | .rdStatus => Sys2Proof.Machine.execRdStatus s
  | .rdData => Sys2Proof.Machine.execRdData s
  | .rdRsv o => Sys2Proof.Machine.execRdRsv o s
  | .rdCrcCtrl => Sys2Proof.Machine.execRdCrcCtrl s
  | .rdCrcData => Sys2Proof.Machine.execRdCrcData s
  | .rdCrcAcc => Sys2Proof.Machine.execRdCrcAcc s

end Sys2Proof.Machine
end

