-- ==== Sys2Proof/Machine/Fetch.lean ====
section
/-! DEFINITION. How a turn is found and taken: the next turn of the agenda or of the environment, the
access on the host's bus, and the precedence of reset. -/

namespace Sys2Proof.Machine

/-- The window is the eight addresses BASE + 0x0 to BASE + 0x7 (20_memory.md R50). -/
def windowSize : Nat := 8

/-- The access touches an address of the window. An access of width 0 counts as one at its address; a
wide access that reaches into the window from outside it touches it (log 10). -/
def BusAccess.touchesWindow (a : BusAccess) : Bool :=
  decide (a.addr < Config.base + windowSize) && decide (Config.base < a.addr + max a.width 1)

/-- The access word that stands for a one-byte access to the window (30_encoding.md R71). A read carries
0 in `D` (R70). -/
def BusAccess.word (a : BusAccess) : AccessWord :=
  accessWord a.isWrite (BitVec.ofNat 3 (a.addr - Config.base)) (if a.isWrite then a.value else 0x00#8)

/-- The access word of the host access to the window that a turn makes, where it makes one: by its word, or
by a one-byte access on the host's bus (30_encoding.md R71). -/
def Turn.hostWord (t : Turn) : Option AccessWord :=
  if t.reset then none
  else match t.action with
    | .access w => some w
    | .bus a => if a.touchesWindow && a.width == 1 then some a.word else none
    | .engine _ => none
    | .idle => none

/-- One host access by its access word. -/
def takeAccess (w : AccessWord) (s : State) : Host.Outcome State Fault Refusal := exec (decode w) s

/-- One access on the host's bus: outside the window it is no access to TWE (log 11), of another width
than one byte it is refused (20_memory.md R51), and else it is its access word's access (30_encoding.md
R71). -/
def takeBusAccess (a : BusAccess) (s : State) : Host.Outcome State Fault Refusal :=
  if !a.touchesWindow then .next s
  else if a.width ≠ 1 then .refused (.accessWidth a.width)
  else takeAccess a.word s

/-- What one agent does at its turn (00_scope.md R14; 20_memory.md R57). -/
def takeAction (act : Action) (s : State) : Host.Outcome State Fault Refusal :=
  match act with
  | .access w => takeAccess w s
  | .bus a => takeBusAccess a s
  | .engine d => .next (complete d s)
  | .idle => .next s

/-- One turn: reset takes precedence over the action of the same instant (70_reset_and_hazards.md R250;
log 7). -/
def takeTurn (t : Turn) (s : State) : Host.Outcome State Fault Refusal :=
  if t.reset then .next (resetBlock s) else takeAction t.action s

/-- The turn that comes next: the first scripted one, else the environment's (log 1). -/
def nextTurn (s : State) : Turn :=
  match s.agenda with
  | t :: _ => t
  | [] => Config.environment s

/-- The state in which the next turn is taken: the turn is off the agenda and the step is counted. -/
def turnTaken (s : State) : State := { s with agenda := s.agenda.tail, steps := s.steps + 1 }

/-- The turn of a host access by its access word, with reset not asserted. -/
def accessTurn (w : AccessWord) : Turn := ⟨false, .access w⟩

end Sys2Proof.Machine
end

