-- ==== Sys2Proof/Machine/Step.lean ====
section
/-! DEFINITION. One step of the machine: one turn of one agent (20_memory.md R57). -/

namespace Sys2Proof.Machine

/-- One atomic step: a host access, a completion, a reset, or nothing (20_memory.md R57;
70_reset_and_hazards.md R250). -/
def step (s : State) : Host.Outcome State Fault Refusal := takeTurn (nextTurn s) (turnTaken s)

/-- `s` with the host about to make the access whose word is the low `nbits` bits of `w`: the access is
put at the head of the agenda, where the next step takes its turn (log 2). -/
def State.withFetchWord (s : State) (nbits w : Nat) : State :=
  { s with agenda := accessTurn (BitVec.ofNat 12 (w % 2 ^ nbits)) :: s.agenda }

end Sys2Proof.Machine
end

