-- ==== Sys2Proof/Machine/Primitives.lean ====
section
/-! DEFINITION. The host's pseudo-instructions (30_encoding.md R81; 42_transport_primitives.md) and the
firmware's transactions (44_bus_transactions.md), as turns. The host's variables and jumps are outside
the block (30_encoding.md R80): a `poll` is the reads its loop makes. -/

namespace Sys2Proof.Machine

/-- The five transport primitives (42_transport_primitives.md R172 to R176). -/
inductive Primitive where
  | start
  | stop
  | writeByte (b : Byte)
  | readByteAck
  | readByteNack
deriving DecidableEq, Repr

/-- The accesses that request the phase: the expansion before its `poll` (30_encoding.md R81). -/
def Primitive.request : Primitive → List Instr
  | .start => [.start]
  | .stop => [.stop]
  | .writeByte b => [.wrData b, .write]
  | .readByteAck => [.readAck]
  | .readByteNack => [.readNack]

/-- The accesses after the `poll` (30_encoding.md R81). -/
def Primitive.result : Primitive → List Instr
  | .start => []
  | .stop => []
  | .writeByte _ => []
  | .readByteAck => [.rdData]
  | .readByteNack => [.rdData]

/-- A `poll` whose loop makes `n` reads (42_transport_primitives.md R171). -/
def poll (n : Nat) : List Instr := List.replicate n .rdStatus

/-- The whole expansion of a primitive whose `poll` makes `n` reads (30_encoding.md R81). -/
def Primitive.expand (p : Primitive) (n : Nat) : List Instr := p.request ++ poll n ++ p.result

/-- `crcCompute(bytes) -> v` (43_crc.md R199). -/
def crcComputeAccesses (bytes : List Byte) : List Instr :=
  .crcInit :: (bytes.map Instr.crcFeed ++ [.rdCrcAcc])

/-- `clearErrors` (30_encoding.md R81). -/
def clearErrors : Instr := .wrStatus 0x30#8

/-- The host's turns for a list of accesses, in program order (20_memory.md R58). -/
def accesses (is : List Instr) : List Turn := is.map fun i => accessTurn (encode i)

/-- The engine's turn, with the remote side's answers. -/
def engineTurn (d : Draw) : Turn := ⟨false, .engine d⟩

/-- A turn at which nothing happens. -/
def idleTurn : Turn := ⟨false, .idle⟩

/-- One run of a primitive whose phase completes: how many reads its `poll` makes before the completion,
and what the remote side answers (42_transport_primitives.md R170, R171). -/
structure PrimitiveRun where
  prim : Primitive
  early : Nat
  draw : Draw
deriving DecidableEq, Repr

/-- The turns of a run of a primitive: "the loop ends at the first read after the completion step"
(42_transport_primitives.md R171; log 19). -/
def PrimitiveRun.turns (r : PrimitiveRun) : List Turn :=
  accesses (r.prim.request ++ poll r.early) ++ (engineTurn r.draw :: accesses (poll 1 ++ r.prim.result))

/-- The event a primitive's phase appends when it completes, from a state in which its first phase is
legal: a `start()` from IDLE, any other from HELD (R172 to R176). -/
def PrimitiveRun.event (r : PrimitiveRun) : BusEvent :=
  match r.prim with
  | .start => .start
  | .stop => .stop
  | .writeByte b => .write b r.draw.ack
  | .readByteAck => .read r.draw.byte .ack
  | .readByteNack => .read r.draw.byte .nack

/-- The turns of a sequence of primitives. -/
def sequenceTurns (rs : List PrimitiveRun) : List Turn := rs.flatMap PrimitiveRun.turns

/-- A byte primitive: one that moves a byte inside a transaction. -/
def Primitive.isByte : Primitive → Bool
  | .start => false
  | .stop => false
  | .writeByte _ => true
  | .readByteAck => true
  | .readByteNack => true

/-- A transaction as the host's obligations want it: one start, byte primitives, one stop
(42_transport_primitives.md R179 to R181). DESIGN CHOICE: none is enough, so `start(); stop()` is one. The
source's words in 00_scope.md R15 want "one or more" and R180 names no minimum (log 26). -/
def isTransaction : List Primitive → Bool
  | .start :: rest => rest.getLast? == some .stop && rest.dropLast.all Primitive.isByte
  | _ => false

/-- A display command transaction (44_bus_transactions.md R211). -/
def displayCommand (k : Byte) : List Primitive :=
  [.start, .writeByte (addrW Config.displayAddr), .writeByte 0x00#8, .writeByte k, .stop]

/-- A display data transaction (R212). -/
def displayData (g : Byte) : List Primitive :=
  [.start, .writeByte (addrW Config.displayAddr), .writeByte 0x40#8, .writeByte g, .stop]

/-- The columns of a glyph, five bytes (R213, R214). -/
abbrev Glyph := Vector Byte 5

/-- The data transactions of one printed character: six zero columns for a space, else the glyph's five
columns and a zero column (R213). The font is outside the block, a parameter (log 21). -/
def printChar (font : Char → Glyph) (c : Char) : List (List Primitive) :=
  ((if c = ' ' then List.replicate 5 0x00#8 else (font c).toList) ++ [0x00#8]).map displayData

/-- The data transactions of a printed string: its characters' in order (R213). -/
def printString (font : Char → Glyph) (s : List Char) : List (List Primitive) := s.flatMap (printChar font)

/-- The transactions of `setCursor` are three commands; their bytes are not in the source (R213; log 21). -/
def setCursor (page lowNibble highNibble : Byte) : List (List Primitive) :=
  [displayCommand page, displayCommand lowNibble, displayCommand highNibble]

/-- The transactions of `clear()`: one `setCursor` for each of 8 pages and `8 × 128` zero columns (R213).
DESIGN CHOICE: R213 and 95_test_vectors.md V6 give the counts and no order; the pages come in rising order
and each page's `setCursor` before its 128 columns (log 23). The command bytes of each page are a parameter
(log 21). -/
def clearDisplay (cursor : Nat → Byte × Byte × Byte) : List (List Primitive) :=
  (List.range 8).flatMap fun p =>
    setCursor (cursor p).1 (cursor p).2.1 (cursor p).2.2 ++ List.replicate 128 (displayData 0x00#8)

/-- The trigger commands of the sensor (R215). -/
def triggerTemperature : Byte := 0xF3#8

/-- The trigger command of a humidity measurement (R215). -/
def triggerHumidity : Byte := 0xF5#8

/-- A sensor trigger transaction (R215). -/
def sensorTrigger (t : Byte) : List Primitive :=
  [.start, .writeByte (addrW Config.sensorAddr), .writeByte t, .stop]

/-- A sensor read transaction: three bytes, the last one answered with NACK (R217). -/
def sensorRead : List Primitive :=
  [.start, .writeByte (addrR Config.sensorAddr), .readByteAck, .readByteAck, .readByteNack, .stop]

/-- The settle delay between a trigger and its read: turns without an access (R216; log 16). -/
def settle : List Turn := List.replicate Config.tConv idleTurn

/-- The three bytes of a sensor reading (R217). -/
structure Reading where
  high : Byte
  low : Byte
  check : Byte
deriving DecidableEq, Repr

/-- A reading from the bytes received, in the order in which they are received: the high byte first, then
the low byte, then the checksum (20_memory.md R53; 44_bus_transactions.md R217). -/
def Reading.ofReceived : List Byte → Option Reading
  | [h, l, c] => some ⟨h, l, c⟩
  | _ => none

/-- `raw = high ++ low` (20_memory.md R53; 44_bus_transactions.md R218). -/
def Reading.raw (r : Reading) : BitVec 16 := r.high ++ r.low

/-- The host's comparison of the computed checksum `v` with the received one: the raw code of a valid
reading, nothing of a discarded one (R218). -/
def Reading.verdict (r : Reading) (v : Byte) : Option (BitVec 16) := if v = r.check then some r.raw else none

/-- The accesses of the check of a reading: the checksum covers the two data bytes only (R218). -/
def Reading.checkAccesses (r : Reading) : List Instr := crcComputeAccesses [r.high, r.low]

/-- The bytes that a list of runs of primitives receives, first to last (42_transport_primitives.md R175,
R176). -/
def receivedBytes (rs : List PrimitiveRun) : List Byte :=
  rs.filterMap fun r => if r.prim = .readByteAck ∨ r.prim = .readByteNack then some r.draw.byte else none

/-- One round of a sample: trigger, settle delay, read, and after the read's stop the check (R219, R220).
The lists give each primitive its pace and its answers. -/
def roundTurns (trigger read : List PrimitiveRun) : List Turn :=
  sequenceTurns trigger ++ settle ++ sequenceTurns read ++
    accesses (((Reading.ofReceived (receivedBytes read)).map Reading.checkAccesses).getD [])

/-- The verdict on a reading whose check the unit carries out right: R218 over the CRC function (43_crc.md
R199). -/
def verifyReading (r : Reading) : Option (BitVec 16) := r.verdict (crcCompute [r.high, r.low])

/-- The one calibration the source gives, `-46 + floor(175.72 × raw / 65536)` (R221; 90_conflicts.md C2).
Host arithmetic, kept as a worked example (00_scope.md R6; log 22). -/
def temperature (raw : BitVec 16) : Int := -46 + (17572 * raw.toNat / (100 * 65536) : Nat)

/-- What the host keeps of a quantity: a valid reading updates its field, an invalid one leaves it equal to
the previous value (R221). -/
def keep (convert : BitVec 16 → Int) (previous : Int) : Option (BitVec 16) → Int
  | some raw => convert raw
  | none => previous

/-- A sample (R220, R221). -/
structure Sample where
  temperature : Int
  humidity : Int
deriving DecidableEq, Repr

/-- What the host keeps of the two rounds of a sample. Each field looks at its own round only: "a failed
check in one does not change the other" (R220, R221). -/
def Sample.update (previous : Sample) (t h : Option (BitVec 16)) : Sample where
  temperature := keep Machine.temperature previous.temperature t
  humidity := keep Config.humidity previous.humidity h

end Sys2Proof.Machine
end

