-- ==== Sys2Proof/Machine/HostProgram.lean ====
section
/-! DEFINITION. The host's programs (30_encoding.md R80) and how one runs beside the engine, and the
firmware's routines as such programs: the primitives (42_transport_primitives.md), the checksum (43_crc.md
R199), the display's operations and the sample (44_bus_transactions.md). A program is no state of the block
(10_state.md R37). -/

namespace Sys2Proof.Machine

/-- A host program with a result: what it does next, as a function of the bytes it has read, which are its
host variables (30_encoding.md R80; log 24). -/
inductive Program (α : Type) where
  /-- The program has made its last access. -/
  | done (a : α)
  /-- An access line without a result. -/
  | write (i : Instr) (next : Program α)
  /-- A read line: `next` gets the byte. -/
  | read (i : Instr) (next : Byte → Program α)
  /-- `poll`: `L: RD_STATUS -> s`, `if s[0] == 0 goto L` (30_encoding.md R81). -/
  | poll (next : Program α)
  /-- A point in the program at which no access happens (44_bus_transactions.md R216). -/
  | wait (next : Program α)

/-- What happens at one instant of a run of a program (20_memory.md R57; 70_reset_and_hazards.md R250). -/
inductive Instant where
  /-- The host's turn. -/
  | host
  /-- The engine's turn, with the remote side's answers. -/
  | engine (d : Draw)
  /-- Nothing. -/
  | idle
  /-- Reset. -/
  | reset
deriving DecidableEq, Repr

variable {α β : Type}

/-- The turn `t` comes next, before anything scripted. -/
def takeNow (t : Turn) (s : State) : Host.Outcome State Fault Refusal := step { s with agenda := t :: s.agenda }

/-- The host makes an access, as the assembler encodes it (30_encoding.md R80). -/
def hostAccess (i : Instr) (s : State) : Host.Outcome State Fault Refusal := takeNow (accessTurn (assemble i)) s

/-- The outcome of a program beside the block's. -/
def Program.after (f : State → Program α) :
    Host.Outcome State Fault Refusal → Host.Outcome (Program α × State) Fault Refusal
  | .next t => .next (f t, t)
  | .fault r => .fault r
  | .refused r => .refused r

/-- What a read line does with what its access has returned, `s` before it and `t` after it: the byte goes
to the rest of the program. An access that returns no byte is no read line, and the program stays at it. -/
def Program.resume (i : Instr) (next : Byte → Program α) (s t : State) : Program α :=
  match t.reads.drop s.reads.length with
  | v :: _ => next v
  | [] => .read i next

/-- The host's turn: one line of its program (20_memory.md R57, R58; 30_encoding.md R80). -/
def Program.hostTurn (p : Program α) (s : State) : Host.Outcome (Program α × State) Fault Refusal :=
  match p with
  | .done a => Program.after (fun _ => .done a) (takeNow idleTurn s)
  | .write i next => Program.after (fun _ => next) (hostAccess i s)
  | .read i next => Program.after (Program.resume i next s) (hostAccess i s)
  | .poll next =>
    Program.after (Program.resume .rdStatus (fun v => if v.getLsbD 0 then next else .poll next) s)
      (hostAccess .rdStatus s)
  | .wait next => Program.after (fun _ => next) (takeNow idleTurn s)

/-- One instant of a run. -/
def Program.instant (x : Instant) (p : Program α) (s : State) : Host.Outcome (Program α × State) Fault Refusal :=
  match x with
  | .host => p.hostTurn s
  | .engine d => Program.after (fun _ => p) (takeNow (engineTurn d) s)
  | .idle => Program.after (fun _ => p) (takeNow idleTurn s)
  | .reset => Program.after (fun _ => p) (takeNow ⟨true, .idle⟩ s)

/-- The run of a program over a list of instants: any interleaving of host, engine and reset
(20_memory.md R57). -/
def Program.run : List Instant → Program α → State → Host.Outcome (Program α × State) Fault Refusal
  | [], p, s => .next (p, s)
  | x :: xs, p, s =>
    match p.instant x s with
    | .next (q, t) => q.run xs t
    | .fault r => .fault r
    | .refused r => .refused r

/-- The result of a program that has executed its last access: what is left of it is points without one.
Nothing where an access is still to come (20_memory.md R66). -/
def Program.result? : Program α → Option α
  | .done a => some a
  | .write _ _ => none
  | .read _ _ => none
  | .poll _ => none
  | .wait next => next.result?

/-- "A run of a host program on TWE ends when the host program has executed its last access and
PHASE = NONE" (20_memory.md R66). -/
def Program.ended (p : Program α) (s : State) : Bool := p.result?.isSome && s.phase == .none

/-- The end of the run over a list of instants, with what is left of the program there: the first point of
the run at which R66's condition holds. What the instants after it do is no part of the run. Nothing where
the run does not end within the instants (20_memory.md R66). -/
def Program.runEnd : List Instant → Program α → State → Option (Program α × State)
  | [], p, s => if p.ended s then some (p, s) else none
  | x :: xs, p, s =>
    if p.ended s then some (p, s)
    else match p.instant x s with
      | .next (q, t) => q.runEnd xs t
      | .fault _ => none
      | .refused _ => none

/-- One program and then another that gets its result. -/
def Program.bind : Program α → (α → Program β) → Program β
  | .done a, f => f a
  | .write i next, f => .write i (next.bind f)
  | .read i next, f => .read i fun v => (next v).bind f
  | .poll next, f => .poll (next.bind f)
  | .wait next, f => .wait (next.bind f)

/-- Access lines without a result, in order, and then the rest of the program. -/
def Program.writes (is : List Instr) (rest : Program α) : Program α := is.foldr .write rest

/-- Read lines in order, with their bytes as the result. -/
def Program.reads : List Instr → Program (List Byte)
  | [] => .done []
  | i :: is => .read i fun v => (Program.reads is).bind fun vs => .done (v :: vs)

/-- `n` points at which no access happens, and then the rest of the program. -/
def Program.waits : Nat → Program α → Program α
  | 0, rest => rest
  | n + 1, rest => .wait (Program.waits n rest)

/-- A primitive: request, `poll`, result (30_encoding.md R81; 42_transport_primitives.md R170). -/
def Primitive.program (p : Primitive) : Program (List Byte) :=
  Program.writes p.request (.poll (Program.reads p.result))

/-- Primitives in order, with the bytes they receive, first to last. -/
def Program.sequence : List Primitive → Program (List Byte)
  | [] => .done []
  | p :: ps => p.program.bind fun v => (Program.sequence ps).bind fun vs => .done (v ++ vs)

/-- Transactions in order. -/
def Program.transactions : List (List Primitive) → Program Unit
  | [] => .done ()
  | ps :: rest => (Program.sequence ps).bind fun _ => Program.transactions rest

/-- `crcCompute(bytes) -> v` (43_crc.md R199). -/
def crcComputeProgram (bytes : List Byte) : Program Byte :=
  Program.writes (.crcInit :: bytes.map Instr.crcFeed) (.read .rdCrcAcc .done)

/-- The display's `init()`: command transactions, each followed by a settle delay (44_bus_transactions.md
R213). The commands, their number ("about 25") and the lengths of the delays are not in the source: a
parameter (log 21). -/
def initDisplay : List (Byte × Nat) → Program Unit
  | [] => .done ()
  | (k, delay) :: rest =>
    (Program.sequence (displayCommand k)).bind fun _ => Program.waits delay (initDisplay rest)

/-- The check of a reading: the host runs the compute routine over its two data bytes and compares the byte
it reads with the received checksum (44_bus_transactions.md R218). -/
def checkReading (r : Reading) : Program (Option (BitVec 16)) :=
  (crcComputeProgram [r.high, r.low]).bind fun v => .done (r.verdict v)

/-- One round of a sample: trigger, settle delay, read, and then the check, which comes after the read's
stop (44_bus_transactions.md R219, R220). -/
def sampleRound (trigger : Byte) : Program (Option (BitVec 16)) :=
  (Program.sequence (sensorTrigger trigger)).bind fun _ =>
    Program.waits Config.tConv
      ((Program.sequence sensorRead).bind fun received =>
        match Reading.ofReceived received with
        | some r => checkReading r
        | none => .done none)

/-- `readSample`: two rounds, temperature then humidity, neither retried, and what the host keeps of them
(44_bus_transactions.md R220, R221). -/
def readSample (previous : Sample) : Program Sample :=
  (sampleRound triggerTemperature).bind fun t =>
    (sampleRound triggerHumidity).bind fun h => .done (previous.update t h)

end Sys2Proof.Machine
end

