-- ==== Sys2Proof/WellFormed.lean ====
section
/-! DEFINITION. What the assembler and the host's bus may write. The operands of `Instr` are typed to
their widths, so the checks left are the ignored bits of a written byte (30_encoding.md R77) and the
shape of a bus access (20_memory.md R51). The hardware runs an access whose ignored bits are set all the
same: no meaning looks at these checks. -/

namespace Sys2Proof

/-- "An assembler writes 0 in every ignored bit" (30_encoding.md R77). The only operand that holds
ignored bits is a STATUS write's byte: bits 7:6 and 3:0. -/
def Instr.wellFormed : Instr → Bool
  | .nop => true
  | .start => true
  | .stop => true
  | .write => true
  | .readAck => true
  | .readNack => true
  | .cmdRsv _ => true
  | .wrStatus imm8 => imm8 &&& 0xCF#8 == 0#8
  | .wrData _ => true
  | .wrRsv _ _ => true
  | .crcCtrlNop => true
  | .crcInit => true
  | .crcFeed _ => true
  | .wrCrcAcc _ => true
  | .rdCtrl => true
  | .rdStatus => true
  | .rdData => true
  | .rdRsv _ => true
  | .rdCrcCtrl => true
  | .rdCrcData => true
  | .rdCrcAcc => true

/-- A one-byte access (20_memory.md R51); a read carries no byte (30_encoding.md R70). -/
def Machine.BusAccess.wellFormed (a : Machine.BusAccess) : Bool :=
  a.width == 1 && (a.isWrite || a.value == 0#8)

end Sys2Proof
end

