-- ==== Sys2Proof/Safety.lean ====
section
/-! DEFINITION. The terms claims are stated in: runs, engine modes, the invariants of the state and of
the bus history, the kinds of turns, and the premise BUS_RESPONSIVE. -/

namespace Sys2Proof.Machine

/-- `n` steps, stopping at the first one that answers no next state. -/
def runSteps : Nat → State → Host.Outcome State Fault Refusal
  | 0, s => .next s
  | n + 1, s =>
    match step s with
    | .next t => runSteps n t
    | .fault r => .fault r
    | .refused r => .refused r

/-- The engine's mode, a function of the state (10_state.md R37). -/
inductive Mode where
  | idle | held | active (k : Phase)
deriving DecidableEq, Repr

/-- The mode a state is in (10_state.md R37). -/
def State.mode (s : State) : Mode :=
  if s.phase = .none then (if s.opened then .held else .idle) else .active s.phase

/-- The phases that are in flight only inside an open transaction (10_state.md R35). -/
def Phase.needsOpen : Phase → Bool
  | .none => false
  | .start => false
  | .stop => true
  | .write => true
  | .readAck => true
  | .readNack => true

/-- The four invariants of 10_state.md R35, in its order. -/
structure State.Consistent (s : State) : Prop where
  busy_iff : s.busy = true ↔ s.phase ≠ .none
  busy_not_done : s.busy = true → s.done = false
  needs_open : s.phase.needsOpen = true → s.opened = true
  cmd_le : s.cmd ≤ 0b101#3

/-- "While a phase is in flight v is that phase's code" (41_register_access.md R140). -/
def State.CmdNamesPhase (s : State) : Prop := s.phase ≠ .none → kind s.cmd = s.phase

/-- What an event does to the bus, given whether a transaction is open: `none` where the event cannot
stand (20_memory.md R63: `Start` with no transaction open, `RepStart` and every other phase with one
open). -/
def BusEvent.openAfter : BusEvent → Bool → Option Bool
  | .start, false => some true
  | .start, true => none
  | .repStart, true => some true
  | .repStart, false => none
  | .stop, true => some false
  | .stop, false => none
  | .write _ _, true => some true
  | .write _ _, false => none
  | .read _ _, true => some true
  | .read _ _, false => none
  | .reset, _ => some false

/-- Whether a history leaves a transaction open, read from its events alone; `none` for a history that is
no sequence of bus phases. -/
def traceOpen (h : List BusEvent) : Option Bool := h.foldl (fun o e => o.bind e.openAfter) (some false)

/-- What an event does to the acknowledge flag (10_state.md R25). -/
def BusEvent.nackAfter : BusEvent → Bool → Bool
  | .start, _ => false
  | .repStart, _ => false
  | .stop, n => n
  | .write _ a, _ => decide (a = .nack)
  | .read _ _, n => n
  | .reset, _ => false

/-- The acknowledge flag that a history leaves, read from its events alone (10_state.md R25). -/
def traceNack (h : List BusEvent) : Bool := h.foldl (fun n e => e.nackAfter n) false

/-- The history is a sequence of bus phases, and OPEN and NACK are what its events say (10_state.md R24,
R25; 20_memory.md R63). -/
structure State.HistoryAgrees (s : State) : Prop where
  opened_eq : traceOpen s.hist = some s.opened
  nack_eq : traceNack s.hist = s.nack

/-- A read row (20_memory.md R55). -/
def isRead : Instr → Bool
  | .rdCtrl => true
  | .rdStatus => true
  | .rdData => true
  | .rdRsv _ => true
  | .rdCrcCtrl => true
  | .rdCrcData => true
  | .rdCrcAcc => true
  | .nop => false
  | .start => false
  | .stop => false
  | .write => false
  | .readAck => false
  | .readNack => false
  | .cmdRsv _ => false
  | .wrStatus _ => false
  | .wrData _ => false
  | .wrRsv _ _ => false
  | .crcCtrlNop => false
  | .crcInit => false
  | .crcFeed _ => false
  | .wrCrcAcc _ => false

/-- A turn that can end a phase in flight: the engine's, or a reset. -/
def Turn.endsPhase (t : Turn) : Bool :=
  t.reset || match t.action with
    | .engine _ => true
    | .access _ => false
    | .bus _ => false
    | .idle => false

/-- A turn at which the host makes an access by its word, or nothing happens; no reset. -/
def Turn.isHostOrIdle (t : Turn) : Bool :=
  !t.reset && match t.action with
    | .engine _ => false
    | .access _ => true
    | .bus _ => false
    | .idle => true

/-- The engine's turn, with reset not asserted. -/
def Turn.fires (t : Turn) : Bool :=
  !t.reset && match t.action with
    | .engine _ => true
    | .access _ => false
    | .bus _ => false
    | .idle => false

/-- The premise BUS_RESPONSIVE for the run from `s`: from every point of the run at which a phase is in
flight, the engine gets a turn or the phase is over without one. It is the weak fairness of the completion
step (00_scope.md R7; 40_bus_commands.md R109; log 17). Nothing in the model grants it. -/
def BusResponsive (s : State) : Prop :=
  ∀ n t, runSteps n s = .next t → t.phase ≠ .none →
    ∃ k u, runSteps k t = .next u ∧ ((nextTurn u).fires = true ∨ u.phase = .none)

/-- A hang: an infinite run in which the phase in flight never completes (00_scope.md R12;
40_bus_commands.md R109). -/
def Hangs (s : State) : Prop :=
  s.phase ≠ .none ∧ ∀ n, ∃ t, runSteps n s = .next t ∧ t.phase = s.phase ∧ t.done = false ∧ t.hist = s.hist

/-- What is observed at the end of a run: "the register state and H" (20_memory.md R66). The end itself is
`Program.runEnd`. -/
structure Observation where
  ctrl : Byte
  status : Byte
  data : Byte
  phase : Phase
  crcAcc : Byte
  hist : List BusEvent
deriving DecidableEq, Repr

/-- The observation of a state (R66). -/
def State.observation (s : State) : Observation :=
  ⟨ctrlByte s, statusByte s, s.data, s.phase, s.crcAcc, s.hist⟩

/-- What is observed at the end of a run of a program over a list of instants, and its result: nothing where
the run does not end within them (R66). -/
def Program.endObservation {α : Type} (p : Program α) (xs : List Instant) (s : State) : Option (α × Observation) :=
  (p.runEnd xs s).bind fun e => e.1.result?.map fun a => (a, e.2.observation)

/-- The engine's control state: all of it but the byte path, the acknowledge flag and the history. -/
structure Control where
  cmd : Code
  done : Bool
  busy : Bool
  opened : Bool
  err : Bool
  wcol : Bool
  phase : Phase
deriving DecidableEq, Repr

/-- The control state of a state. -/
def State.control (s : State) : Control := ⟨s.cmd, s.done, s.busy, s.opened, s.err, s.wcol, s.phase⟩

end Sys2Proof.Machine
end

