-- ==== Sys2Proof/Certificates/Slice0/Obligations.lean ====
section
/-! DEFINITION. The statements about TWE, family by family: encoding, turns, bus phase commands, register
accesses, the CRC unit, invariants, the engine in flight, and the host's primitives. -/

open Sys2Proof Sys2Proof.Machine

/-! Encoding (30_encoding.md) -/

/-- Decoding an encoded instruction gives it back, with every operand at every value (30 R70, R72, R73). For
WR_STATUS the word holds the whole byte (41 R142), its ignored bits too, where R80's assembler writes 0: the
model's choice, log 14. -/
def Obligations.DecodeOfEncodeIsIdentity : Prop := ∀ i : Instr, decode (encode i) = i

/-- Every access word lies in exactly one row of the opcode map, and it is the row of the instruction the
decoder reads (30 R73, whose sentence on the partition the spec marks as derived). -/
def Obligations.RowsPartitionAccessWords : Prop :=
  ∀ w : AccessWord, (opcodeMap.filter fun r => r.covers w).map Row.mnemonic = [mnemonic (decode w)]

/-- The decoder reads every bit of an access word but the ignored ones, and the encoder puts 0 in those:
two words decode alike exactly where their kept bits agree, and encoding a decoded word gives its kept
bits. Ignored are `D[7:3]` of a CTRL write, `D[7:1]` of a CRC_CTRL write and `D` of a read; the byte of any
other write is an operand and stays whole (30 R77, R80; 41 R142; log 14). -/
def Obligations.DecoderReadsTheKeptBits : Prop :=
  let kept (w : AccessWord) : AccessWord :=
    if w &&& 0x800#12 = 0x000#12 then w &&& 0xF00#12
    else if w &&& 0x700#12 = 0x000#12 then w &&& 0xF07#12
    else if w &&& 0x700#12 = 0x400#12 then w &&& 0xF01#12
    else w
  (∀ v w : AccessWord, decode v = decode w ↔ kept v = kept w) ∧
  ∀ w : AccessWord, encode (decode w) = kept w

/-- A write with any value in an ignored bit does what the same write with 0 there does, in every state:
CTRL, STATUS, CRC_CTRL, the ignored writes; and a read's data field is ignored (30 R77; 41 R142, R146;
43 R198). So the word that an assembler writes, with 0 in every ignored bit (30 R80), runs as the instruction
itself. -/
def Obligations.IgnoredBitsHaveNoEffect : Prop :=
  ∀ (d : Byte) (s : State),
    exec (decode (accessWord true 0x0#3 d)) s = exec (decode (accessWord true 0x0#3 (d &&& 0b00000111#8))) s ∧
    exec (decode (accessWord true 0x1#3 d)) s = exec (decode (accessWord true 0x1#3 (d &&& 0b00110000#8))) s ∧
    exec (decode (accessWord true 0x4#3 d)) s = exec (decode (accessWord true 0x4#3 (d &&& 0b00000001#8))) s ∧
    exec (decode (accessWord true 0x6#3 d)) s = exec (decode (accessWord true 0x6#3 0x00#8)) s ∧
    (∀ o : BitVec 1,
      exec (decode (accessWord true (rsvOffset o) d)) s = exec (decode (accessWord true (rsvOffset o) 0x00#8)) s) ∧
    (∀ off : Offset, exec (decode (accessWord false off d)) s = exec (decode (accessWord false off 0x00#8)) s) ∧
    assemble (.wrStatus d) = 0x900#12 ||| (0b0000#4 ++ (d &&& 0b00110000#8)) ∧
    ∀ i : Instr, (decode (assemble i)).wellFormed = true ∧ exec (decode (assemble i)) s = exec i s

/-- The sample decodes of 95_test_vectors.md, section "Decode", and the words 0xD68 and 0xA78 of its sections
"CRC unit registers" and "Register accesses" (43 R195; 41 R143). -/
def Obligations.SampleWordsDecode : Prop :=
  decode 0x8F9#12 = .start ∧ decode 0x807#12 = .cmdRsv 1#1 ∧ decode 0xC03#12 = .crcInit ∧
  decode 0xC02#12 = .crcCtrlNop ∧ decode 0x7AB#12 = .rdRsv 1#1 ∧ decode 0xB00#12 = .wrRsv 0#1 0x00#8 ∧
  decode 0x0FF#12 = .rdCtrl ∧ decode 0xD68#12 = .crcFeed 0x68#8 ∧ decode 0xA78#12 = .wrData 0x78#8

/-- A byte access at an offset does what 20_memory.md R50's table gives the offset: its read column and
its write column. -/
def Obligations.RegisterWindowAgreesWithRows : Prop :=
  ∀ (off : Offset) (d : Byte) (s : State),
    exec (decode (accessWord true off d)) s = .next (windowWrite off d s) ∧
    exec (decode (accessWord false off d)) s = .next { s with reads := s.reads ++ [windowByte off s] }

/-! Turns (20_memory.md R57; 00_scope.md R14) -/

/-- A step at a host access runs the instruction the access word decodes to, the turn being off the agenda
and counted (20 R57; 30 R71). -/
def Obligations.StepRunsDecodedAccess : Prop :=
  ∀ (s : State) (w : AccessWord), nextTurn s = accessTurn w →
    step s = exec (decode w) { s with agenda := s.agenda.tail, steps := s.steps + 1 }

/-- What the host puts where the next step fetches runs next (the model's convention, log 2). -/
def Obligations.FetchedWordRunsNext : Prop :=
  ∀ (s : State) (nbits w : Nat) (i : Instr), decodeTableWord nbits w = some i →
    step (s.withFetchWord nbits w) = exec i { s with steps := s.steps + 1 }

/-- With no turn scripted, the turn is the environment's, whatever it is (the model's convention, log 1). -/
def Obligations.EmptyAgendaAsksEnvironment : Prop :=
  ∀ s : State, s.agenda = [] →
    step s = takeTurn (Config.environment s) { s with steps := s.steps + 1 }

/-- Reset takes precedence over any action of its instant; it sets every piece of state to its reset
value, abandons a phase in flight without an event of its own, and appends `Reset` (70 R250). After it the
engine is IDLE and STATUS reads 0x00. That the other action of the instant does not happen is the model's
reading of "takes precedence" (log 7). -/
def Obligations.ResetTakesPrecedence : Prop :=
  ∀ s : State, (nextTurn s).reset = true →
    ∃ t, step s = .next t ∧
      t = { cmd := 0b000#3, done := false, busy := false, opened := false, nack := false, err := false,
            wcol := false, data := 0x00#8, phase := .none, crcAcc := 0x00#8,
            hist := s.hist ++ [.reset], reads := s.reads, agenda := s.agenda.tail, steps := s.steps + 1 } ∧
      t.mode = .idle ∧ statusByte t = 0x00#8

/-- A host access of any other width than one byte that touches an address of the window is refused (20 R51),
also one that starts below it, and one of width 0 at an address of it: these two are the model's reading,
log 10. -/
def Obligations.NonByteAccessRefused : Prop :=
  ∀ (s : State) (a : BusAccess), nextTurn s = ⟨false, .bus a⟩ → a.width ≠ 1 →
    a.addr < Config.base + 8 → Config.base < a.addr + max a.width 1 → step s = .refused (.accessWidth a.width)

/-- A byte access on the host's bus at BASE + OFF is the access its access word stands for (30 R71). -/
def Obligations.ByteAccessIsItsAccessWord : Prop :=
  ∀ (s : State) (rest : List Turn) (isWrite : Bool) (off : Offset) (d : Byte),
    step { s with agenda := ⟨false, .bus ⟨isWrite, Config.base + off.toNat, 1, d⟩⟩ :: rest } =
      step { s with agenda := accessTurn (accessWord isWrite off d) :: rest }

/-- An access that touches no address of the window leaves the block alone (the model's convention,
log 11). -/
def Obligations.AccessOutsideWindowIsNotOurs : Prop :=
  ∀ (s : State) (a : BusAccess), nextTurn s = ⟨false, .bus a⟩ →
    (a.addr + max a.width 1 ≤ Config.base ∨ Config.base + 8 ≤ a.addr) →
    step s = .next { s with agenda := s.agenda.tail, steps := s.steps + 1 }

/-! Bus phase commands (40_bus_commands.md) -/

/-- Every host write to CTRL, for every byte written: busy, NOP, reserved code, no open transaction,
acceptance, in that order (40 R100). -/
def Obligations.CtrlWriteProcedure : Prop :=
  ∀ (v : Byte) (s : State),
    let c : Code := v.extractLsb' 0 3
    exec (decode (accessWord true 0x0#3 v)) s =
      .next
        (if s.busy = true then { s with wcol := true }
         else if c = 0b000#3 then s
         else if c = 0b110#3 ∨ c = 0b111#3 then { s with err := true, done := true }
         else if (c = 0b010#3 ∨ c = 0b011#3 ∨ c = 0b100#3 ∨ c = 0b101#3) ∧ s.opened = false then
           { s with err := true, done := true }
         else { s with cmd := c, phase := kind c, busy := true, done := false })

/-- NOP: its words, no change when not busy, WCOL when busy (40 R101). -/
def Obligations.NopRule : Prop :=
  (∀ w : AccessWord, w &&& 0xF07#12 = 0x800#12 → decode w = .nop) ∧
  (∀ s : State, s.busy = false → exec .nop s = .next s) ∧
  ∀ s : State, s.busy = true → exec .nop s = .next { s with wcol := true }

/-- Every read of a poll after a NOP shows the DONE of before it, so the poll ends only if DONE was already
1 (40 R101's corner case, which the spec marks as derived). -/
def Obligations.PollAfterNopShowsOldDone : Prop :=
  ∀ (s : State) (n : Nat) (rest : List Turn), s.busy = false →
    s.agenda = accesses (.nop :: poll n) ++ rest →
    ∃ v : Byte, v.getLsbD 0 = s.done ∧
      runSteps (n + 1) s = .next { s with
        reads := s.reads ++ List.replicate n v, agenda := rest, steps := s.steps + (n + 1) }

/-- START: its words; accepted whether a transaction is open or not; WCOL when busy; its completion
(40 R102). -/
def Obligations.StartRule : Prop :=
  (∀ w : AccessWord, w &&& 0xF07#12 = 0x801#12 → decode w = .start) ∧
  (∀ s : State, s.busy = false →
    exec .start s = .next { s with cmd := 0b001#3, phase := .start, busy := true, done := false }) ∧
  (∀ s : State, s.busy = true → exec .start s = .next { s with wcol := true }) ∧
  ∀ (s : State) (d : Draw), nextTurn s = engineTurn d → s.phase = .start →
    step s = .next { turnTaken s with
      hist := s.hist ++ [if s.opened = true then .repStart else .start], opened := true, nack := false,
      phase := .none, busy := false, done := true }

/-- STOP: its words; accepted with a transaction open, rejected with none; WCOL when busy; its completion
(40 R103). -/
def Obligations.StopRule : Prop :=
  (∀ w : AccessWord, w &&& 0xF07#12 = 0x802#12 → decode w = .stop) ∧
  (∀ s : State, s.busy = false → s.opened = true →
    exec .stop s = .next { s with cmd := 0b010#3, phase := .stop, busy := true, done := false }) ∧
  (∀ s : State, s.busy = false → s.opened = false →
    exec .stop s = .next { s with err := true, done := true }) ∧
  (∀ s : State, s.busy = true → exec .stop s = .next { s with wcol := true }) ∧
  ∀ (s : State) (d : Draw), nextTurn s = engineTurn d → s.phase = .stop →
    step s = .next { turnTaken s with
      hist := s.hist ++ [.stop], opened := false, phase := .none, busy := false, done := true }

/-- WRITE: its words; accepted with a transaction open, rejected with none; WCOL when busy; its completion
sends DATA and records the answer (40 R104). -/
def Obligations.WriteRule : Prop :=
  (∀ w : AccessWord, w &&& 0xF07#12 = 0x803#12 → decode w = .write) ∧
  (∀ s : State, s.busy = false → s.opened = true →
    exec .write s = .next { s with cmd := 0b011#3, phase := .write, busy := true, done := false }) ∧
  (∀ s : State, s.busy = false → s.opened = false →
    exec .write s = .next { s with err := true, done := true }) ∧
  (∀ s : State, s.busy = true → exec .write s = .next { s with wcol := true }) ∧
  ∀ (s : State) (d : Draw), nextTurn s = engineTurn d → s.phase = .write →
    step s = .next { turnTaken s with
      hist := s.hist ++ [.write s.data d.ack], nack := decide (d.ack = .nack),
      phase := .none, busy := false, done := true }

/-- READ_ACK: its words; accepted with a transaction open, rejected with none; WCOL when busy; its
completion loads the byte and answers ACK (40 R105). -/
def Obligations.ReadAckRule : Prop :=
  (∀ w : AccessWord, w &&& 0xF07#12 = 0x804#12 → decode w = .readAck) ∧
  (∀ s : State, s.busy = false → s.opened = true →
    exec .readAck s = .next { s with cmd := 0b100#3, phase := .readAck, busy := true, done := false }) ∧
  (∀ s : State, s.busy = false → s.opened = false →
    exec .readAck s = .next { s with err := true, done := true }) ∧
  (∀ s : State, s.busy = true → exec .readAck s = .next { s with wcol := true }) ∧
  ∀ (s : State) (d : Draw), nextTurn s = engineTurn d → s.phase = .readAck →
    step s = .next { turnTaken s with
      hist := s.hist ++ [.read d.byte .ack], data := d.byte, phase := .none, busy := false, done := true }

/-- READ_NACK: its words; accepted with a transaction open, rejected with none; WCOL when busy; its
completion loads the byte and answers NACK (40 R106). -/
def Obligations.ReadNackRule : Prop :=
  (∀ w : AccessWord, w &&& 0xF07#12 = 0x805#12 → decode w = .readNack) ∧
  (∀ s : State, s.busy = false → s.opened = true →
    exec .readNack s = .next { s with cmd := 0b101#3, phase := .readNack, busy := true, done := false }) ∧
  (∀ s : State, s.busy = false → s.opened = false →
    exec .readNack s = .next { s with err := true, done := true }) ∧
  (∀ s : State, s.busy = true → exec .readNack s = .next { s with wcol := true }) ∧
  ∀ (s : State) (d : Draw), nextTurn s = engineTurn d → s.phase = .readNack →
    step s = .next { turnTaken s with
      hist := s.hist ++ [.read d.byte .nack], data := d.byte, phase := .none, busy := false, done := true }

/-- CMD_RSV: its words; rejected when not busy, whether a transaction is open or not; WCOL when busy
(40 R107). -/
def Obligations.ReservedCommandRule : Prop :=
  (∀ w : AccessWord, w &&& 0xF06#12 = 0x806#12 → decode w = .cmdRsv (w.extractLsb' 0 1)) ∧
  (∀ (c : BitVec 1) (s : State), s.busy = false →
    exec (.cmdRsv c) s = .next { s with err := true, done := true }) ∧
  ∀ (c : BitVec 1) (s : State), s.busy = true → exec (.cmdRsv c) s = .next { s with wcol := true }

/-- The completion step is enabled only when a phase is in flight: then it ends the phase, appends one
event and touches no register but STATUS, DATA and PHASE; with none in flight the engine's turn changes
nothing, which is the model's convention (40 R108; log 6). -/
def Obligations.CompletionEndsThePhase : Prop :=
  ∀ (s : State) (d : Draw), nextTurn s = engineTurn d →
    (s.phase = .none → step s = .next { s with agenda := s.agenda.tail, steps := s.steps + 1 }) ∧
    (s.phase ≠ .none → ∃ t e, step s = .next t ∧ t.hist = s.hist ++ [e] ∧ t.phase = .none ∧
      t.busy = false ∧ t.done = true ∧ t.cmd = s.cmd ∧ t.err = s.err ∧ t.wcol = s.wcol ∧
      t.crcAcc = s.crcAcc ∧ t.reads = s.reads)

/-- A NACK answer leaves the engine HELD with NACK = 1, and every command that is legal with a transaction
open is accepted next (40 R110). -/
def Obligations.NackLeavesTransactionOpen : Prop :=
  ∀ (s : State) (d : Draw), nextTurn s = engineTurn d → s.phase = .write → s.opened = true →
    d.ack = .nack →
    ∃ t, step s = .next t ∧ t.hist = s.hist ++ [.write s.data .nack] ∧ t.mode = .held ∧ t.nack = true ∧
      ∀ (i : Instr) (c : Code),
        (i, c) ∈ [(Instr.start, 0b001#3), (.stop, 0b010#3), (.write, 0b011#3), (.readAck, 0b100#3),
          (.readNack, 0b101#3)] →
        exec i t = .next { t with cmd := c, phase := kind c, busy := true, done := false }

/-- The engine does not look inside the bytes it moves: what a host access and a completion do to the
engine's control state depends on no byte of DATA, on no answer and on no history (40 R111). -/
def Obligations.BytesDoNotSteerTheEngine : Prop :=
  (∀ (i : Instr) (s₁ s₂ t₁ t₂ : State), s₁.control = s₂.control →
    exec i s₁ = .next t₁ → exec i s₂ = .next t₂ → t₁.control = t₂.control) ∧
  ∀ (d₁ d₂ : Draw) (s₁ s₂ : State), s₁.control = s₂.control →
    (complete d₁ s₁).control = (complete d₂ s₂).control

/-! Register accesses (41_register_access.md) -/

/-- RD_CTRL returns CTRL.CMD with bits 7:3 at 0; after reset that is 0x00, while a phase is in flight it is
that phase's code, and a CTRL write that starts no phase does not change it (41 R140). -/
def Obligations.RdCtrlReturnsCommand : Prop :=
  (∀ w : AccessWord, w &&& 0xF00#12 = 0x000#12 → decode w = .rdCtrl) ∧
  (∀ s : State, exec .rdCtrl s = .next { s with reads := s.reads ++ [0b00000#5 ++ s.cmd] }) ∧
  (∀ s : State, ctrlByte (resetBlock s) = 0x00#8) ∧
  (∀ s : State, s.CmdNamesPhase → s.phase ≠ .none → kind ((ctrlByte s).extractLsb' 0 3) = s.phase) ∧
  ∀ (d : Byte) (s t : State), exec (decode (accessWord true 0x0#3 d)) s = .next t →
    t.busy = s.busy → ctrlByte t = ctrlByte s

/-- RD_STATUS returns the six flags at their bits and 0 in bits 7:6, and clears nothing; after reset the
byte is 0x00, and while a phase is in flight its bit 0 is 0 and its bit 1 is 1 (41 R141; the last clause
under the invariants of 10 R35). -/
def Obligations.RdStatusReturnsFlags : Prop :=
  (∀ w : AccessWord, w &&& 0xF00#12 = 0x100#12 → decode w = .rdStatus) ∧
  (∀ s : State, exec .rdStatus (resetBlock s) =
    .next { resetBlock s with reads := s.reads ++ [0x00#8] }) ∧
  ∀ s : State, ∃ v : Byte, exec .rdStatus s = .next { s with reads := s.reads ++ [v] } ∧
    v.getLsbD 0 = s.done ∧ v.getLsbD 1 = s.busy ∧ v.getLsbD 2 = s.opened ∧ v.getLsbD 3 = s.nack ∧
    v.getLsbD 4 = s.err ∧ v.getLsbD 5 = s.wcol ∧ v.getLsbD 6 = false ∧ v.getLsbD 7 = false ∧
    (s.Consistent → s.phase ≠ .none → v.getLsbD 0 = false ∧ v.getLsbD 1 = true)

/-- WR_STATUS clears ERR where bit 4 is 1 and WCOL where bit 5 is 1, busy or not, and does nothing else
(41 R142). -/
def Obligations.WrStatusClearsWrittenOnes : Prop :=
  (∀ imm8 : Byte, decode (0x9#4 ++ imm8) = .wrStatus imm8) ∧
  ∀ (imm8 : Byte) (s : State),
    exec (.wrStatus imm8) s =
      .next { s with
        err := if imm8.getLsbD 4 = true then false else s.err
        wcol := if imm8.getLsbD 5 = true then false else s.wcol }

/-- WR_DATA loads DATA when not busy; while busy it is ignored and sets WCOL (41 R143). -/
def Obligations.WrDataLoadsOrCollides : Prop :=
  (∀ imm8 : Byte, decode (0xA#4 ++ imm8) = .wrData imm8) ∧
  (∀ (imm8 : Byte) (s : State), s.busy = false → exec (.wrData imm8) s = .next { s with data := imm8 }) ∧
  ∀ (imm8 : Byte) (s : State), s.busy = true → exec (.wrData imm8) s = .next { s with wcol := true }

/-- RD_DATA returns DATA when not busy; while busy it returns the unspecified byte of the state it is made
in, a free value, and changes nothing (41 R144; log 8). -/
def Obligations.RdDataReturnsDataWhenNotBusy : Prop :=
  (∀ w : AccessWord, w &&& 0xF00#12 = 0x200#12 → decode w = .rdData) ∧
  (∀ s : State, s.busy = false → exec .rdData s = .next { s with reads := s.reads ++ [s.data] }) ∧
  ∀ s : State, s.busy = true →
    exec .rdData s = .next { s with reads := s.reads ++ [Config.unspecifiedByte s] }

/-- The reads that return 0x00: reserved offsets, CRC_CTRL, CRC_DATA, with their words (41 R145; 43 R194,
R196). -/
def Obligations.ZeroReads : Prop :=
  (∀ w : AccessWord, w &&& 0xB00#12 = 0x300#12 → decode w = .rdRsv (w.extractLsb' 10 1)) ∧
  (∀ w : AccessWord, w &&& 0xF00#12 = 0x400#12 → decode w = .rdCrcCtrl) ∧
  (∀ w : AccessWord, w &&& 0xF00#12 = 0x500#12 → decode w = .rdCrcData) ∧
  (∀ (o : BitVec 1) (s : State), exec (.rdRsv o) s = .next { s with reads := s.reads ++ [0x00#8] }) ∧
  (∀ s : State, exec .rdCrcCtrl s = .next { s with reads := s.reads ++ [0x00#8] }) ∧
  ∀ s : State, exec .rdCrcData s = .next { s with reads := s.reads ++ [0x00#8] }

/-- The writes after which nothing has changed, busy or not: reserved offsets, CRC_CTRL with `D[0]` = 0,
CRC_ACC, with their words (41 R146; 43 R193, R198). -/
def Obligations.WritesWithoutEffect : Prop :=
  (∀ w : AccessWord, w &&& 0xB00#12 = 0xB00#12 →
    decode w = .wrRsv (w.extractLsb' 10 1) (w.extractLsb' 0 8)) ∧
  (∀ w : AccessWord, w &&& 0xF01#12 = 0xC00#12 → decode w = .crcCtrlNop) ∧
  (∀ imm8 : Byte, decode (0xE#4 ++ imm8) = .wrCrcAcc imm8) ∧
  (∀ (o : BitVec 1) (imm8 : Byte) (s : State), exec (.wrRsv o imm8) s = .next s) ∧
  (∀ s : State, exec .crcCtrlNop s = .next s) ∧
  ∀ (imm8 : Byte) (s : State), exec (.wrCrcAcc imm8) s = .next s

/-! The CRC unit (43_crc.md) -/

/-- CRC_INIT sets CRC_ACC to the seed 0x00 and touches nothing else, in every state, busy or not
(43 R192). -/
def Obligations.CrcInitSeedsAccumulator : Prop :=
  (∀ w : AccessWord, w &&& 0xF01#12 = 0xC01#12 → decode w = .crcInit) ∧
  ∀ s : State, exec .crcInit s = .next { s with crcAcc := 0x00#8 }

/-- CRC_FEED replaces CRC_ACC with the CRC step of its value and the byte: the exclusive or of the two,
then eight times "shift left, and XOR 0x31 if the top bit was set" (43 R190, R195). -/
def Obligations.CrcFeedStepsAccumulator : Prop :=
  (∀ imm8 : Byte, decode (0xD#4 ++ imm8) = .crcFeed imm8) ∧
  ∀ (imm8 : Byte) (s : State),
    let shift (v : Byte) : Byte := if v.getLsbD 7 = true then (v <<< 1) ^^^ 0x31#8 else v <<< 1
    exec (.crcFeed imm8) s = .next { s with crcAcc := Nat.iterate shift 8 (s.crcAcc ^^^ imm8) }

/-- RD_CRC_ACC returns CRC_ACC, which is 0x00 after reset and after CRC_INIT with no feeds (43 R197). -/
def Obligations.RdCrcAccReturnsAccumulator : Prop :=
  (∀ w : AccessWord, w &&& 0xF00#12 = 0x600#12 → decode w = .rdCrcAcc) ∧
  (∀ s : State, exec .rdCrcAcc s = .next { s with reads := s.reads ++ [s.crcAcc] }) ∧
  (∀ s : State, (resetBlock s).crcAcc = 0x00#8) ∧
  ∀ s t : State, exec .crcInit s = .next t → t.crcAcc = 0x00#8 ∧ t.crcAcc = crcCompute []

/-- The six laws of the CRC function (43 R200, an inference the spec marks as derived). -/
def Obligations.CrcFunctionLaws : Prop :=
  (∀ a b : Byte, crc8Step a b = crc8Step (a ^^^ b) 0x00#8) ∧
  (crc8Step 0x00#8 0x00#8 = 0x00#8 ∧ ∀ n : Nat, crcCompute (List.replicate n 0x00#8) = 0x00#8) ∧
  (∀ a b c : Byte, crc8Step (a ^^^ c) b = crc8Step a b ^^^ crc8Step c 0x00#8) ∧
  (∀ s t : List Byte, crcCompute (s ++ t) = crcFold (crcCompute s) t) ∧
  (∀ s : List Byte, crcCompute (s ++ [crcCompute s]) = 0x00#8) ∧
  ∀ a : Byte, Function.Bijective (crc8Step a)

/-- The host's compute routine, from every state and for every list of bytes: the value read and CRC_ACC
at the end are `compute` of the bytes, and no engine register has changed (43 R199, whose effect the spec marks as derived). -/
def Obligations.CrcComputeRoutine : Prop :=
  ∀ (bytes : List Byte) (rest : List Turn) (s : State),
    s.agenda = accesses (crcComputeAccesses bytes) ++ rest →
    runSteps (bytes.length + 2) s =
      .next { s with crcAcc := crcCompute bytes, reads := s.reads ++ [crcCompute bytes], agenda := rest,
                     steps := s.steps + (bytes.length + 2) }

/-- A computation that omits CRC_INIT continues from the previous value (43 R201, marked there as derived). -/
def Obligations.FeedsWithoutInitContinue : Prop :=
  ∀ (bytes : List Byte) (rest : List Turn) (s : State),
    s.agenda = accesses (bytes.map Instr.crcFeed) ++ rest →
    runSteps bytes.length s =
      .next { s with crcAcc := crcFold s.crcAcc bytes, agenda := rest, steps := s.steps + bytes.length }

/-- The engine and the CRC unit do not touch each other: no host access but CRC_INIT and CRC_FEED and no
completion changes CRC_ACC, and those two change nothing else (43 R192, R195; 10 R31). -/
def Obligations.CrcUnitIsIndependent : Prop :=
  (∀ (i : Instr) (s t : State), exec i s = .next t → i ≠ .crcInit → (∀ b, i ≠ .crcFeed b) →
    t.crcAcc = s.crcAcc) ∧
  (∀ (d : Draw) (s : State), (complete d s).crcAcc = s.crcAcc) ∧
  ∀ (b : Byte) (s t : State), exec .crcInit s = .next t ∨ exec (.crcFeed b) s = .next t →
    ∃ v, t = { s with crcAcc := v }

/-! Every access -/

/-- Every byte access to the block has a defined result: no fault and no refusal (00 R12; 60 R231). -/
def Obligations.EveryByteAccessCompletes : Prop :=
  ∀ (i : Instr) (s : State), ∃ t, exec i s = .next t

/-- No read changes any state of TWE, and two reads with no engine step between them return the same
value, except a DATA read while BUSY (20 R55). -/
def Obligations.ReadsHaveNoSideEffect : Prop :=
  (∀ (i : Instr) (s : State), isRead i = true → ∃ v, exec i s = .next { s with reads := s.reads ++ [v] }) ∧
  ∀ (i : Instr) (s t u : State), isRead i = true → (i = .rdData → s.busy = false) →
    exec i s = .next t → exec i t = .next u → ∃ v, u = { s with reads := s.reads ++ [v, v] }

/-- A step appends at most one event to the history and never takes one out; a host access appends none
(20 R63; 10 R40). -/
def Obligations.HistoryOnlyGrows : Prop :=
  (∀ s t : State, step s = .next t → ∃ e, t.hist = s.hist ++ e ∧ e.length ≤ 1) ∧
  ∀ (i : Instr) (s t : State), exec i s = .next t → t.hist = s.hist

/-- ERR is bit 4 of the status byte; a host access sets it exactly where a command is rejected; of the host
accesses only a STATUS write with bit 4 set clears it, reset clears it, and no completion changes it
(10 R26). -/
def Obligations.ErrIsStickyAndMarksRejections : Prop :=
  (∀ (i : Instr) (s t : State), exec i s = .next t → s.err = false →
    (t.err = true ↔ s.busy = false ∧
      ((∃ c, i = .cmdRsv c) ∨ s.opened = false ∧ i ∈ [.stop, .write, .readAck, .readNack]))) ∧
  (∀ (i : Instr) (s t : State), exec i s = .next t → s.err = true →
    (t.err = false ↔ ∃ b : Byte, i = .wrStatus b ∧ b.getLsbD 4 = true)) ∧
  (∀ (d : Draw) (s : State), (complete d s).err = s.err) ∧
  ∀ s : State, (resetBlock s).err = false ∧ (statusByte s).getLsbD 4 = s.err

/-- WCOL is bit 5 of the status byte; a host access sets it exactly where CTRL or DATA is written while
busy, and that write does nothing else: it is ignored; of the host accesses only a STATUS write with bit 5
set clears it, reset clears it, and no completion changes it (10 R27). -/
def Obligations.WcolIsStickyAndMarksCollisions : Prop :=
  let writesCtrlOrData (i : Instr) : Prop := (∃ c, i = .cmdRsv c) ∨ (∃ b, i = .wrData b) ∨
    i ∈ [.nop, .start, .stop, .write, .readAck, .readNack]
  (∀ (i : Instr) (s t : State), exec i s = .next t → s.wcol = false →
    (t.wcol = true ↔ s.busy = true ∧ writesCtrlOrData i)) ∧
  (∀ (i : Instr) (s : State), s.busy = true → writesCtrlOrData i →
    exec i s = .next { s with wcol := true }) ∧
  (∀ (i : Instr) (s t : State), exec i s = .next t → s.wcol = true →
    (t.wcol = false ↔ ∃ b : Byte, i = .wrStatus b ∧ b.getLsbD 5 = true)) ∧
  (∀ (d : Draw) (s : State), (complete d s).wcol = s.wcol) ∧
  ∀ s : State, (resetBlock s).wcol = false ∧ (statusByte s).getLsbD 5 = s.wcol

/-- DONE: a host access clears it only by being accepted as a command and sets it only by being rejected, a
completion of a phase in flight sets it, and reset clears it (10 R20, R22). -/
def Obligations.DoneFollowsAcceptanceAndCompletion : Prop :=
  (∀ (i : Instr) (s t : State), exec i s = .next t → s.done = true → t.done = false →
    s.busy = false ∧ t.busy = true ∧ ∃ c, t.cmd = c ∧ t.phase = kind c ∧ kind c ≠ .none) ∧
  (∀ (i : Instr) (s t : State), exec i s = .next t → s.done = false → t.done = true →
    s.busy = false ∧ t = { s with err := true, done := true }) ∧
  (∀ (d : Draw) (s : State), s.phase ≠ .none → (complete d s).done = true) ∧
  ∀ s : State, (resetBlock s).done = false

/-- The engine's mode moves by an acceptance (IDLE to ACTIVE(START), HELD to any phase), by a completion (STOP
to IDLE, any other phase to HELD) and by reset (to IDLE), and by no other step: a step that moves it is at a
reset's turn, at the engine's with a phase in flight, or at a turn at which the host makes an access to the
window, whose instruction starts a phase (10 R37, marked there as derived; 70 R250). -/
def Obligations.ModeTransitions : Prop :=
  (∀ (i : Instr) (s t : State), s.Consistent → exec i s = .next t →
    t.mode = s.mode ∨ (s.mode = .idle ∧ t.mode = .active .start) ∨
      (s.mode = .held ∧ ∃ k, k ≠ .none ∧ t.mode = .active k)) ∧
  (∀ (d : Draw) (s : State), s.Consistent → s.phase ≠ .none →
    (complete d s).mode = if s.phase = .stop then .idle else .held) ∧
  (∀ s : State, (resetBlock s).mode = .idle) ∧
  ∀ s t : State, step s = .next t → t.mode ≠ s.mode →
    (nextTurn s).reset = true ∨ (∃ d, nextTurn s = engineTurn d ∧ s.phase ≠ .none) ∨
      (∃ w, (nextTurn s).hostWord = some w ∧ exec (decode w) (turnTaken s) = .next t ∧
        s.busy = false ∧ t.busy = true)

/-! Invariants (10_state.md R35; 20_memory.md R63) -/

/-- The state right after reset meets the invariants. -/
def Obligations.ResetStateMeetsInvariants : Prop :=
  State.reset.Consistent ∧ State.reset.CmdNamesPhase ∧ State.reset.HistoryAgrees

/-- Every step keeps the four invariants of 10 R35, and CTRL.CMD stays the code of the phase in flight
(10 R35; 41 R140). -/
def Obligations.StepKeepsEngineConsistency : Prop :=
  ∀ s t : State, s.Consistent → s.CmdNamesPhase → step s = .next t → t.Consistent ∧ t.CmdNamesPhase

/-- Every step keeps the history a sequence of bus phases, with OPEN and NACK what its events say
(20 R63; 10 R24, R25). -/
def Obligations.StepKeepsHistoryAgreement : Prop :=
  ∀ s t : State, s.Consistent → s.HistoryAgrees → step s = .next t → t.HistoryAgrees

/-- In every state reachable from a reset, whatever the host and the environment do, the four invariants
hold (10 R35, an inference the spec marks as derived). The run starts in any state right after a reset, so any turns may be scripted in it. -/
def Obligations.ReachableStatesAreConsistent : Prop :=
  ∀ (n : Nat) (s t : State), runSteps n (resetBlock s) = .next t → t.Consistent

/-! A phase in flight (40_bus_commands.md R109, R112; 70_reset_and_hazards.md) -/

/-- While a phase is in flight, no step but the engine's and a reset changes it, the byte it moves, the
last accepted command, OPEN, NACK, BUSY, DONE or the history: at most one phase is in flight (40 R112, an
inference the spec marks as derived). -/
def Obligations.PhaseInFlightIsUndisturbed : Prop :=
  ∀ s t : State, s.busy = true → (nextTurn s).endsPhase = false → step s = .next t →
    t.phase = s.phase ∧ t.data = s.data ∧ t.cmd = s.cmd ∧ t.opened = s.opened ∧ t.nack = s.nack ∧
    t.busy = s.busy ∧ t.done = s.done ∧ t.hist = s.hist

/-- A hang: for as long as the engine gets no turn, whatever the host does, the phase stays in flight, DONE
stays 0 and nothing reaches the history. There is no timeout (40 R109; 42 R177). -/
def Obligations.NoTimeout : Prop :=
  ∀ s : State, s.busy = true → s.done = false → (s.agenda.all Turn.isHostOrIdle) = true →
    ∃ t, runSteps s.agenda.length s = .next t ∧ t.phase = s.phase ∧ t.busy = true ∧ t.done = false ∧
      t.hist = s.hist

/-- Under the premise BUS_RESPONSIVE the phase in flight is over by some point of the run: completed, or
abandoned by a reset (40 R109). -/
def Obligations.ResponsiveBusEndsThePhase : Prop :=
  ∀ s : State, s.phase ≠ .none → BusResponsive s → ∃ k t, runSteps k s = .next t ∧ t.phase = .none

/-- The byte a WRITE sends is the byte in DATA when the WRITE was accepted, whatever the host writes
between acceptance and completion (40 R104's corner case, which the spec marks as derived). -/
def Obligations.WriteSendsDataHeldAtAcceptance : Prop :=
  ∀ (s : State) (between rest : List Turn) (d : Draw), s.busy = false → s.opened = true →
    between.all Turn.isHostOrIdle = true →
    s.agenda = accessTurn 0x803#12 :: (between ++ engineTurn d :: rest) →
    ∃ t, runSteps (between.length + 2) s = .next t ∧ t.hist = s.hist ++ [.write s.data d.ack] ∧
      t.data = s.data ∧ t.nack = decide (d.ack = .nack) ∧ t.done = true ∧ t.busy = false ∧
      t.opened = true ∧ t.agenda = rest

/-! The host's primitives and transactions (42_transport_primitives.md; 44_bus_transactions.md) -/

/-- A poll with a phase in flight: every read before the completion shows DONE = 0, the first one after it
shows DONE = 1, and the reads change no register (42 R171, marked there as derived; log 19). -/
def Obligations.PollEndsAtFirstReadAfterCompletion : Prop :=
  ∀ (s : State) (n : Nat) (d : Draw) (rest : List Turn), s.phase ≠ .none → s.done = false →
    s.agenda = accesses (poll n) ++ engineTurn d :: (accesses (poll 1) ++ rest) →
    ∃ (t : State) (v₀ v₁ : Byte), runSteps (n + 2) s = .next t ∧
      t.reads = s.reads ++ List.replicate n v₀ ++ [v₁] ∧ v₀.getLsbD 0 = false ∧ v₁.getLsbD 0 = true ∧
      t = { complete d s with reads := t.reads, agenda := rest, steps := s.steps + (n + 2) }

/-- Each primitive, from the modes in which its phase is legal, at every pace of its poll and with every
answer: one event (a `start()` from HELD is a repeated start), the mode after it, the byte it leaves in DATA and, for a read, the byte it returns (42 R172 to
R176, whose effects the spec marks as derived; log 19). -/
def Obligations.PrimitiveEffects : Prop :=
  ∀ (r : PrimitiveRun) (rest : List Turn) (s : State), s.phase = .none → s.busy = false →
    (r.prim ≠ .start → s.opened = true) → s.agenda = r.turns ++ rest →
    ∃ t, runSteps r.turns.length s = .next t ∧ t.agenda = rest ∧
      t.hist = s.hist ++ [if r.prim = .start ∧ s.opened = true then .repStart else r.event] ∧
      t.mode = (if r.prim = .stop then .idle else .held) ∧ t.busy = false ∧ t.done = true ∧
      t.err = s.err ∧ t.wcol = s.wcol ∧ t.crcAcc = s.crcAcc ∧
      (match r.prim with
        | .start => t.data = s.data ∧ t.nack = false
        | .stop => t.data = s.data ∧ t.nack = s.nack
        | .writeByte b => t.data = b ∧ t.nack = decide (r.draw.ack = .nack)
        | .readByteAck => t.data = r.draw.byte ∧ t.nack = s.nack ∧ t.reads.getLast? = some r.draw.byte
        | .readByteNack => t.data = r.draw.byte ∧ t.nack = s.nack ∧ t.reads.getLast? = some r.draw.byte)

/-- `stop()` with no transaction open, and the byte primitives: rejected, the poll ends at its first read,
and nothing reaches the bus (42 R173 to R176; log 19). -/
def Obligations.PrimitivesRejectedFromIdle : Prop :=
  ∀ (p : Primitive) (rest : List Turn) (s : State), p ≠ .start → s.phase = .none → s.busy = false →
    s.opened = false → s.agenda = accesses (p.expand 1) ++ rest →
    ∃ t, runSteps (p.expand 1).length s = .next t ∧ t.hist = s.hist ∧ t.err = true ∧ t.done = true ∧
      t.mode = .idle ∧ t.agenda = rest ∧
      t.data = (match p with | .writeByte b => b | _ => s.data) ∧
      ∃ v : Byte, v.getLsbD 0 = true ∧
        t.reads = s.reads ++ v :: (match p with | .readByteAck => [s.data] | .readByteNack => [s.data] | _ => [])

/-- A well-formed transaction whose phases all complete adds to the history exactly one Start, then one
event for each byte primitive in program order, then one Stop, and leaves the engine IDLE with DONE = 1 and
ERR and WCOL unchanged, at every pace and with every answer (42 R181, an inference the spec marks as
derived; log 19). A transaction without a byte primitive is one of them, which is the model's choice
(log 26). -/
def Obligations.TransactionHistory : Prop :=
  ∀ (rs : List PrimitiveRun) (rest : List Turn) (s : State),
    isTransaction (rs.map PrimitiveRun.prim) = true → s.phase = .none → s.busy = false →
    s.opened = false → s.agenda = sequenceTurns rs ++ rest →
    ∃ t, runSteps (sequenceTurns rs).length s = .next t ∧ t.hist = s.hist ++ rs.map PrimitiveRun.event ∧
      t.mode = .idle ∧ t.busy = false ∧ t.done = true ∧ t.err = s.err ∧ t.wcol = s.wcol ∧ t.agenda = rest

/-- One sample, temperature then humidity, adds exactly 4 transactions and 20 events, with a settle delay
between each trigger and its read and the check of the received bytes after each read's stop (44 R215 to
R220; logs 16, 19; the address bytes are log 20's). -/
def Obligations.SampleHistory : Prop :=
  ∀ (trigT readT trigH readH : List PrimitiveRun) (rest : List Turn) (s : State),
    trigT.map PrimitiveRun.prim = sensorTrigger 0xF3#8 → readT.map PrimitiveRun.prim = sensorRead →
    trigH.map PrimitiveRun.prim = sensorTrigger 0xF5#8 → readH.map PrimitiveRun.prim = sensorRead →
    s.phase = .none → s.busy = false → s.opened = false →
    s.agenda = roundTurns trigT readT ++ (roundTurns trigH readH ++ rest) →
    ∃ (n : Nat) (t : State) (e : List BusEvent), runSteps n s = .next t ∧ t.hist = s.hist ++ e ∧
      e = (trigT ++ readT ++ trigH ++ readH).map PrimitiveRun.event ∧ e.length = 20 ∧ t.mode = .idle ∧
      t.agenda = rest

/-- `readSample` as the host's program, at every interleaving of host and engine without a reset and with
every answer: when it comes to its end, the history has gained the 20 events of its four transactions, each
reading's high byte received first; each field of the sample is the conversion of its own round's raw code
where the checksum of the two data bytes is the received one, and else the previous value, whatever the other
round's check; and the engine is IDLE, no transaction open, however the checks went (20 R53; 44 R217 to R221,
R219 and the history of R220 marked there as derived; logs 20, 22, 24, 25). -/
def Obligations.ReadSampleEffect : Prop :=
  ∀ (previous sample : Sample) (xs : List Instant) (s t : State), s.phase = .none → s.busy = false →
    s.opened = false → Instant.reset ∉ xs → (readSample previous).run xs s = .next (.done sample, t) →
    ∃ (a₁ a₂ a₃ a₄ a₅ a₆ : Ack) (hT lT cT hH lH cH : Byte),
      t.hist = s.hist ++
        [.start, .write (addrW Config.sensorAddr) a₁, .write 0xF3#8 a₂, .stop,
         .start, .write (addrR Config.sensorAddr) a₃, .read hT .ack, .read lT .ack, .read cT .nack, .stop,
         .start, .write (addrW Config.sensorAddr) a₄, .write 0xF5#8 a₅, .stop,
         .start, .write (addrR Config.sensorAddr) a₆, .read hH .ack, .read lH .ack, .read cH .nack, .stop] ∧
      sample.temperature =
        (if crcCompute [hT, lT] = cT then temperature (hT ++ lT) else previous.temperature) ∧
      sample.humidity = (if crcCompute [hH, lH] = cH then Config.humidity (hH ++ lH) else previous.humidity) ∧
      t.mode = .idle ∧ t.busy = false ∧ t.err = s.err ∧ t.wcol = s.wcol ∧ t.crcAcc = crcCompute [hH, lH]
end

