-- ==== Sys2Proof/Laws/Crc.lean ====
section
/-! SUPPORT. The CRC-8 function over lists. -/

namespace Sys2Proof.Machine

@[simp] theorem crcFold_nil (a : Byte) : crcFold a [] = a := rfl

@[simp] theorem crcFold_cons (a b : Byte) (bytes : List Byte) :
    crcFold a (b :: bytes) = crcFold (crc8Step a b) bytes := rfl

theorem crcShift_xor (a b : Byte) : crcShift (a ^^^ b) = crcShift a ^^^ crcShift b := by
  unfold crcShift
  rw [BitVec.getLsbD_xor, BitVec.shiftLeft_xor_distrib]
  cases a.getLsbD 7 <;> cases b.getLsbD 7 <;> simp only [Bool.xor_false, Bool.xor_true, Bool.not_true,
    Bool.not_false, Bool.false_eq_true, if_true, if_false]
  · rw [BitVec.xor_assoc]
  · rw [BitVec.xor_assoc, BitVec.xor_assoc, BitVec.xor_comm (b <<< 1)]
  · rw [BitVec.xor_comm (b <<< 1), ← BitVec.xor_assoc, BitVec.xor_assoc (a <<< 1), BitVec.xor_self,
      BitVec.xor_zero]

theorem crcShifts_xor (n : Nat) (a b : Byte) : crcShifts n (a ^^^ b) = crcShifts n a ^^^ crcShifts n b := by
  induction n generalizing a b with
  | zero => rfl
  | succ n ih => rw [crcShifts, crcShifts, crcShifts, crcShift_xor, ih]

end Sys2Proof.Machine
end

