-- ==== Sys2Proof/Laws/Decode.lean ====
section
/-! SUPPORT. The fields of an access word, and the decoder and encoder over them. -/

namespace Sys2Proof

open Machine

@[simp] theorem wField_accessWord (b : Bool) (off : Offset) (d : Byte) : wField (accessWord b off d) = b := by
  simp only [wField, accessWord, BitVec.getLsbD_append]
  cases b <;> rfl

@[simp] theorem offField_accessWord (b : Bool) (off : Offset) (d : Byte) : offField (accessWord b off d) = off := by
  ext i hi
  simp only [offField, accessWord, BitVec.getElem_extractLsb', BitVec.getLsbD_append]
  rw [if_neg (by omega), if_pos (by omega), Nat.add_sub_cancel_left, BitVec.getLsbD_eq_getElem hi]

@[simp] theorem dField_accessWord (b : Bool) (off : Offset) (d : Byte) : dField (accessWord b off d) = d := by
  ext i hi
  simp only [dField, accessWord, BitVec.getElem_extractLsb', BitVec.getLsbD_append]
  rw [if_pos (by omega), Nat.zero_add, BitVec.getLsbD_eq_getElem hi]

/-- An access word is its three fields (30_encoding.md R70). -/
theorem accessWord_fields (w : AccessWord) : accessWord (wField w) (offField w) (dField w) = w := by
  apply BitVec.eq_of_getLsbD_eq
  intro i hi
  simp only [accessWord, wField, offField, dField, BitVec.getLsbD_append, BitVec.getLsbD_extractLsb',
    BitVec.getLsbD_ofBool]
  split
  · simp [*]
  · split
    · rw [show 8 + (i - 8) = i by omega]; simp; omega
    · rw [show i = 11 by omega]; simp

theorem decode_write (off : Offset) (d : Byte) : decode (accessWord true off d) = decodeWrite off d := by
  simp [decode]

theorem decode_read (off : Offset) (d : Byte) : decode (accessWord false off d) = decodeRead off := by
  simp [decode]

@[simp] theorem oField_rsvOffset (o : BitVec 1) : oField (rsvOffset o) = o := by
  revert o; decide

theorem decodeWrite_rsvOffset (o : BitVec 1) (d : Byte) : decodeWrite (rsvOffset o) d = .wrRsv o d := by
  obtain rfl | rfl : o = 0#1 ∨ o = 1#1 := by revert o; decide
  all_goals rfl

theorem decodeRead_rsvOffset (o : BitVec 1) : decodeRead (rsvOffset o) = .rdRsv o := by
  revert o; decide

theorem decodeCtrl_rsvCode (c : BitVec 1) : decodeCtrl (0b00000#5 ++ rsvCode c) = .cmdRsv c := by
  revert c; decide

/-- A number that fits in 12 bits is decoded as its access word. -/
theorem decodeTableWord_of_lt {nbits w : Nat} (hw : w < 4096) (hn : w < 2 ^ nbits) :
    decodeTableWord nbits w = some (decode (BitVec.ofNat 12 w)) := by
  simp [decodeTableWord, wordOfNat, Nat.mod_eq_of_lt hn, hw]

end Sys2Proof
end

