-- ==== Sys2Proof/Laws/State.lean ====
section
/-! SUPPORT. What each operation does to each field of the state, one lemma for each, so that no later
proof unfolds a record update. -/

namespace Sys2Proof.Machine

variable (s : State)

@[simp] theorem emit_cmd (e : BusEvent) : (emit e s).cmd = s.cmd := rfl
@[simp] theorem emit_done (e : BusEvent) : (emit e s).done = s.done := rfl
@[simp] theorem emit_busy (e : BusEvent) : (emit e s).busy = s.busy := rfl
@[simp] theorem emit_opened (e : BusEvent) : (emit e s).opened = s.opened := rfl
@[simp] theorem emit_nack (e : BusEvent) : (emit e s).nack = s.nack := rfl
@[simp] theorem emit_err (e : BusEvent) : (emit e s).err = s.err := rfl
@[simp] theorem emit_wcol (e : BusEvent) : (emit e s).wcol = s.wcol := rfl
@[simp] theorem emit_data (e : BusEvent) : (emit e s).data = s.data := rfl
@[simp] theorem emit_phase (e : BusEvent) : (emit e s).phase = s.phase := rfl
@[simp] theorem emit_crcAcc (e : BusEvent) : (emit e s).crcAcc = s.crcAcc := rfl
@[simp] theorem emit_hist (e : BusEvent) : (emit e s).hist = s.hist ++ [e] := rfl
@[simp] theorem emit_reads (e : BusEvent) : (emit e s).reads = s.reads := rfl
@[simp] theorem emit_agenda (e : BusEvent) : (emit e s).agenda = s.agenda := rfl
@[simp] theorem emit_steps (e : BusEvent) : (emit e s).steps = s.steps := rfl

@[simp] theorem answer_cmd (v : Byte) : (answer v s).cmd = s.cmd := rfl
@[simp] theorem answer_done (v : Byte) : (answer v s).done = s.done := rfl
@[simp] theorem answer_busy (v : Byte) : (answer v s).busy = s.busy := rfl
@[simp] theorem answer_opened (v : Byte) : (answer v s).opened = s.opened := rfl
@[simp] theorem answer_nack (v : Byte) : (answer v s).nack = s.nack := rfl
@[simp] theorem answer_err (v : Byte) : (answer v s).err = s.err := rfl
@[simp] theorem answer_wcol (v : Byte) : (answer v s).wcol = s.wcol := rfl
@[simp] theorem answer_data (v : Byte) : (answer v s).data = s.data := rfl
@[simp] theorem answer_phase (v : Byte) : (answer v s).phase = s.phase := rfl
@[simp] theorem answer_crcAcc (v : Byte) : (answer v s).crcAcc = s.crcAcc := rfl
@[simp] theorem answer_hist (v : Byte) : (answer v s).hist = s.hist := rfl
@[simp] theorem answer_reads (v : Byte) : (answer v s).reads = s.reads ++ [v] := rfl
@[simp] theorem answer_agenda (v : Byte) : (answer v s).agenda = s.agenda := rfl
@[simp] theorem answer_steps (v : Byte) : (answer v s).steps = s.steps := rfl

@[simp] theorem reject_cmd : (reject s).cmd = s.cmd := rfl
@[simp] theorem reject_done : (reject s).done = true := rfl
@[simp] theorem reject_busy : (reject s).busy = s.busy := rfl
@[simp] theorem reject_opened : (reject s).opened = s.opened := rfl
@[simp] theorem reject_nack : (reject s).nack = s.nack := rfl
@[simp] theorem reject_err : (reject s).err = true := rfl
@[simp] theorem reject_wcol : (reject s).wcol = s.wcol := rfl
@[simp] theorem reject_data : (reject s).data = s.data := rfl
@[simp] theorem reject_phase : (reject s).phase = s.phase := rfl
@[simp] theorem reject_crcAcc : (reject s).crcAcc = s.crcAcc := rfl
@[simp] theorem reject_hist : (reject s).hist = s.hist := rfl
@[simp] theorem reject_reads : (reject s).reads = s.reads := rfl
@[simp] theorem reject_agenda : (reject s).agenda = s.agenda := rfl
@[simp] theorem reject_steps : (reject s).steps = s.steps := rfl

@[simp] theorem collide_cmd : (collide s).cmd = s.cmd := rfl
@[simp] theorem collide_done : (collide s).done = s.done := rfl
@[simp] theorem collide_busy : (collide s).busy = s.busy := rfl
@[simp] theorem collide_opened : (collide s).opened = s.opened := rfl
@[simp] theorem collide_nack : (collide s).nack = s.nack := rfl
@[simp] theorem collide_err : (collide s).err = s.err := rfl
@[simp] theorem collide_wcol : (collide s).wcol = true := rfl
@[simp] theorem collide_data : (collide s).data = s.data := rfl
@[simp] theorem collide_phase : (collide s).phase = s.phase := rfl
@[simp] theorem collide_crcAcc : (collide s).crcAcc = s.crcAcc := rfl
@[simp] theorem collide_hist : (collide s).hist = s.hist := rfl
@[simp] theorem collide_reads : (collide s).reads = s.reads := rfl
@[simp] theorem collide_agenda : (collide s).agenda = s.agenda := rfl
@[simp] theorem collide_steps : (collide s).steps = s.steps := rfl

@[simp] theorem accept_cmd (c : Code) : (accept c s).cmd = c := rfl
@[simp] theorem accept_done (c : Code) : (accept c s).done = false := rfl
@[simp] theorem accept_busy (c : Code) : (accept c s).busy = true := rfl
@[simp] theorem accept_opened (c : Code) : (accept c s).opened = s.opened := rfl
@[simp] theorem accept_nack (c : Code) : (accept c s).nack = s.nack := rfl
@[simp] theorem accept_err (c : Code) : (accept c s).err = s.err := rfl
@[simp] theorem accept_wcol (c : Code) : (accept c s).wcol = s.wcol := rfl
@[simp] theorem accept_data (c : Code) : (accept c s).data = s.data := rfl
@[simp] theorem accept_phase (c : Code) : (accept c s).phase = kind c := rfl
@[simp] theorem accept_crcAcc (c : Code) : (accept c s).crcAcc = s.crcAcc := rfl
@[simp] theorem accept_hist (c : Code) : (accept c s).hist = s.hist := rfl
@[simp] theorem accept_reads (c : Code) : (accept c s).reads = s.reads := rfl
@[simp] theorem accept_agenda (c : Code) : (accept c s).agenda = s.agenda := rfl
@[simp] theorem accept_steps (c : Code) : (accept c s).steps = s.steps := rfl

@[simp] theorem setCrcAcc_cmd (v : Byte) : (setCrcAcc v s).cmd = s.cmd := rfl
@[simp] theorem setCrcAcc_done (v : Byte) : (setCrcAcc v s).done = s.done := rfl
@[simp] theorem setCrcAcc_busy (v : Byte) : (setCrcAcc v s).busy = s.busy := rfl
@[simp] theorem setCrcAcc_opened (v : Byte) : (setCrcAcc v s).opened = s.opened := rfl
@[simp] theorem setCrcAcc_nack (v : Byte) : (setCrcAcc v s).nack = s.nack := rfl
@[simp] theorem setCrcAcc_err (v : Byte) : (setCrcAcc v s).err = s.err := rfl
@[simp] theorem setCrcAcc_wcol (v : Byte) : (setCrcAcc v s).wcol = s.wcol := rfl
@[simp] theorem setCrcAcc_data (v : Byte) : (setCrcAcc v s).data = s.data := rfl
@[simp] theorem setCrcAcc_phase (v : Byte) : (setCrcAcc v s).phase = s.phase := rfl
@[simp] theorem setCrcAcc_crcAcc (v : Byte) : (setCrcAcc v s).crcAcc = v := rfl
@[simp] theorem setCrcAcc_hist (v : Byte) : (setCrcAcc v s).hist = s.hist := rfl
@[simp] theorem setCrcAcc_reads (v : Byte) : (setCrcAcc v s).reads = s.reads := rfl
@[simp] theorem setCrcAcc_agenda (v : Byte) : (setCrcAcc v s).agenda = s.agenda := rfl
@[simp] theorem setCrcAcc_steps (v : Byte) : (setCrcAcc v s).steps = s.steps := rfl

@[simp] theorem clearFlags_cmd (d : Byte) : (clearFlags d s).cmd = s.cmd := rfl
@[simp] theorem clearFlags_done (d : Byte) : (clearFlags d s).done = s.done := rfl
@[simp] theorem clearFlags_busy (d : Byte) : (clearFlags d s).busy = s.busy := rfl
@[simp] theorem clearFlags_opened (d : Byte) : (clearFlags d s).opened = s.opened := rfl
@[simp] theorem clearFlags_nack (d : Byte) : (clearFlags d s).nack = s.nack := rfl
@[simp] theorem clearFlags_err (d : Byte) : (clearFlags d s).err = (s.err && !clearsErr d) := rfl
@[simp] theorem clearFlags_wcol (d : Byte) : (clearFlags d s).wcol = (s.wcol && !clearsWcol d) := rfl
@[simp] theorem clearFlags_data (d : Byte) : (clearFlags d s).data = s.data := rfl
@[simp] theorem clearFlags_phase (d : Byte) : (clearFlags d s).phase = s.phase := rfl
@[simp] theorem clearFlags_crcAcc (d : Byte) : (clearFlags d s).crcAcc = s.crcAcc := rfl
@[simp] theorem clearFlags_hist (d : Byte) : (clearFlags d s).hist = s.hist := rfl
@[simp] theorem clearFlags_reads (d : Byte) : (clearFlags d s).reads = s.reads := rfl
@[simp] theorem clearFlags_agenda (d : Byte) : (clearFlags d s).agenda = s.agenda := rfl
@[simp] theorem clearFlags_steps (d : Byte) : (clearFlags d s).steps = s.steps := rfl

@[simp] theorem finish_cmd : (finish s).cmd = s.cmd := rfl
@[simp] theorem finish_done : (finish s).done = true := rfl
@[simp] theorem finish_busy : (finish s).busy = false := rfl
@[simp] theorem finish_opened : (finish s).opened = s.opened := rfl
@[simp] theorem finish_nack : (finish s).nack = s.nack := rfl
@[simp] theorem finish_err : (finish s).err = s.err := rfl
@[simp] theorem finish_wcol : (finish s).wcol = s.wcol := rfl
@[simp] theorem finish_data : (finish s).data = s.data := rfl
@[simp] theorem finish_phase : (finish s).phase = .none := rfl
@[simp] theorem finish_crcAcc : (finish s).crcAcc = s.crcAcc := rfl
@[simp] theorem finish_hist : (finish s).hist = s.hist := rfl
@[simp] theorem finish_reads : (finish s).reads = s.reads := rfl
@[simp] theorem finish_agenda : (finish s).agenda = s.agenda := rfl
@[simp] theorem finish_steps : (finish s).steps = s.steps := rfl

@[simp] theorem completeStart_cmd : (completeStart s).cmd = s.cmd := rfl
@[simp] theorem completeStart_done : (completeStart s).done = s.done := rfl
@[simp] theorem completeStart_busy : (completeStart s).busy = s.busy := rfl
@[simp] theorem completeStart_opened : (completeStart s).opened = true := rfl
@[simp] theorem completeStart_nack : (completeStart s).nack = false := rfl
@[simp] theorem completeStart_err : (completeStart s).err = s.err := rfl
@[simp] theorem completeStart_wcol : (completeStart s).wcol = s.wcol := rfl
@[simp] theorem completeStart_data : (completeStart s).data = s.data := rfl
@[simp] theorem completeStart_phase : (completeStart s).phase = s.phase := rfl
@[simp] theorem completeStart_crcAcc : (completeStart s).crcAcc = s.crcAcc := rfl
@[simp] theorem completeStart_hist : (completeStart s).hist = s.hist ++ [if s.opened then .repStart else .start] := rfl
@[simp] theorem completeStart_reads : (completeStart s).reads = s.reads := rfl
@[simp] theorem completeStart_agenda : (completeStart s).agenda = s.agenda := rfl
@[simp] theorem completeStart_steps : (completeStart s).steps = s.steps := rfl

@[simp] theorem completeStop_cmd : (completeStop s).cmd = s.cmd := rfl
@[simp] theorem completeStop_done : (completeStop s).done = s.done := rfl
@[simp] theorem completeStop_busy : (completeStop s).busy = s.busy := rfl
@[simp] theorem completeStop_opened : (completeStop s).opened = false := rfl
@[simp] theorem completeStop_nack : (completeStop s).nack = s.nack := rfl
@[simp] theorem completeStop_err : (completeStop s).err = s.err := rfl
@[simp] theorem completeStop_wcol : (completeStop s).wcol = s.wcol := rfl
@[simp] theorem completeStop_data : (completeStop s).data = s.data := rfl
@[simp] theorem completeStop_phase : (completeStop s).phase = s.phase := rfl
@[simp] theorem completeStop_crcAcc : (completeStop s).crcAcc = s.crcAcc := rfl
@[simp] theorem completeStop_hist : (completeStop s).hist = s.hist ++ [.stop] := rfl
@[simp] theorem completeStop_reads : (completeStop s).reads = s.reads := rfl
@[simp] theorem completeStop_agenda : (completeStop s).agenda = s.agenda := rfl
@[simp] theorem completeStop_steps : (completeStop s).steps = s.steps := rfl

@[simp] theorem completeWrite_cmd (a : Ack) : (completeWrite a s).cmd = s.cmd := rfl
@[simp] theorem completeWrite_done (a : Ack) : (completeWrite a s).done = s.done := rfl
@[simp] theorem completeWrite_busy (a : Ack) : (completeWrite a s).busy = s.busy := rfl
@[simp] theorem completeWrite_opened (a : Ack) : (completeWrite a s).opened = s.opened := rfl
@[simp] theorem completeWrite_nack (a : Ack) : (completeWrite a s).nack = decide (a = .nack) := rfl
@[simp] theorem completeWrite_err (a : Ack) : (completeWrite a s).err = s.err := rfl
@[simp] theorem completeWrite_wcol (a : Ack) : (completeWrite a s).wcol = s.wcol := rfl
@[simp] theorem completeWrite_data (a : Ack) : (completeWrite a s).data = s.data := rfl
@[simp] theorem completeWrite_phase (a : Ack) : (completeWrite a s).phase = s.phase := rfl
@[simp] theorem completeWrite_crcAcc (a : Ack) : (completeWrite a s).crcAcc = s.crcAcc := rfl
@[simp] theorem completeWrite_hist (a : Ack) : (completeWrite a s).hist = s.hist ++ [.write s.data a] := rfl
@[simp] theorem completeWrite_reads (a : Ack) : (completeWrite a s).reads = s.reads := rfl
@[simp] theorem completeWrite_agenda (a : Ack) : (completeWrite a s).agenda = s.agenda := rfl
@[simp] theorem completeWrite_steps (a : Ack) : (completeWrite a s).steps = s.steps := rfl

@[simp] theorem completeRead_cmd (b : Byte) (a : Ack) : (completeRead b a s).cmd = s.cmd := rfl
@[simp] theorem completeRead_done (b : Byte) (a : Ack) : (completeRead b a s).done = s.done := rfl
@[simp] theorem completeRead_busy (b : Byte) (a : Ack) : (completeRead b a s).busy = s.busy := rfl
@[simp] theorem completeRead_opened (b : Byte) (a : Ack) : (completeRead b a s).opened = s.opened := rfl
@[simp] theorem completeRead_nack (b : Byte) (a : Ack) : (completeRead b a s).nack = s.nack := rfl
@[simp] theorem completeRead_err (b : Byte) (a : Ack) : (completeRead b a s).err = s.err := rfl
@[simp] theorem completeRead_wcol (b : Byte) (a : Ack) : (completeRead b a s).wcol = s.wcol := rfl
@[simp] theorem completeRead_data (b : Byte) (a : Ack) : (completeRead b a s).data = b := rfl
@[simp] theorem completeRead_phase (b : Byte) (a : Ack) : (completeRead b a s).phase = s.phase := rfl
@[simp] theorem completeRead_crcAcc (b : Byte) (a : Ack) : (completeRead b a s).crcAcc = s.crcAcc := rfl
@[simp] theorem completeRead_hist (b : Byte) (a : Ack) : (completeRead b a s).hist = s.hist ++ [.read b a] := rfl
@[simp] theorem completeRead_reads (b : Byte) (a : Ack) : (completeRead b a s).reads = s.reads := rfl
@[simp] theorem completeRead_agenda (b : Byte) (a : Ack) : (completeRead b a s).agenda = s.agenda := rfl
@[simp] theorem completeRead_steps (b : Byte) (a : Ack) : (completeRead b a s).steps = s.steps := rfl

@[simp] theorem resetBlock_cmd : (resetBlock s).cmd = 0b000#3 := rfl
@[simp] theorem resetBlock_done : (resetBlock s).done = false := rfl
@[simp] theorem resetBlock_busy : (resetBlock s).busy = false := rfl
@[simp] theorem resetBlock_opened : (resetBlock s).opened = false := rfl
@[simp] theorem resetBlock_nack : (resetBlock s).nack = false := rfl
@[simp] theorem resetBlock_err : (resetBlock s).err = false := rfl
@[simp] theorem resetBlock_wcol : (resetBlock s).wcol = false := rfl
@[simp] theorem resetBlock_data : (resetBlock s).data = 0x00#8 := rfl
@[simp] theorem resetBlock_phase : (resetBlock s).phase = .none := rfl
@[simp] theorem resetBlock_crcAcc : (resetBlock s).crcAcc = 0x00#8 := rfl
@[simp] theorem resetBlock_hist : (resetBlock s).hist = s.hist ++ [.reset] := rfl
@[simp] theorem resetBlock_reads : (resetBlock s).reads = s.reads := rfl
@[simp] theorem resetBlock_agenda : (resetBlock s).agenda = s.agenda := rfl
@[simp] theorem resetBlock_steps : (resetBlock s).steps = s.steps := rfl

@[simp] theorem turnTaken_cmd : (turnTaken s).cmd = s.cmd := rfl
@[simp] theorem turnTaken_done : (turnTaken s).done = s.done := rfl
@[simp] theorem turnTaken_busy : (turnTaken s).busy = s.busy := rfl
@[simp] theorem turnTaken_opened : (turnTaken s).opened = s.opened := rfl
@[simp] theorem turnTaken_nack : (turnTaken s).nack = s.nack := rfl
@[simp] theorem turnTaken_err : (turnTaken s).err = s.err := rfl
@[simp] theorem turnTaken_wcol : (turnTaken s).wcol = s.wcol := rfl
@[simp] theorem turnTaken_data : (turnTaken s).data = s.data := rfl
@[simp] theorem turnTaken_phase : (turnTaken s).phase = s.phase := rfl
@[simp] theorem turnTaken_crcAcc : (turnTaken s).crcAcc = s.crcAcc := rfl
@[simp] theorem turnTaken_hist : (turnTaken s).hist = s.hist := rfl
@[simp] theorem turnTaken_reads : (turnTaken s).reads = s.reads := rfl
@[simp] theorem turnTaken_agenda : (turnTaken s).agenda = s.agenda.tail := rfl
@[simp] theorem turnTaken_steps : (turnTaken s).steps = s.steps + 1 := rfl

@[simp] theorem State.withFetchWord_cmd (nbits w : Nat) : (s.withFetchWord nbits w).cmd = s.cmd := rfl
@[simp] theorem State.withFetchWord_done (nbits w : Nat) : (s.withFetchWord nbits w).done = s.done := rfl
@[simp] theorem State.withFetchWord_busy (nbits w : Nat) : (s.withFetchWord nbits w).busy = s.busy := rfl
@[simp] theorem State.withFetchWord_opened (nbits w : Nat) : (s.withFetchWord nbits w).opened = s.opened := rfl
@[simp] theorem State.withFetchWord_nack (nbits w : Nat) : (s.withFetchWord nbits w).nack = s.nack := rfl
@[simp] theorem State.withFetchWord_err (nbits w : Nat) : (s.withFetchWord nbits w).err = s.err := rfl
@[simp] theorem State.withFetchWord_wcol (nbits w : Nat) : (s.withFetchWord nbits w).wcol = s.wcol := rfl
@[simp] theorem State.withFetchWord_data (nbits w : Nat) : (s.withFetchWord nbits w).data = s.data := rfl
@[simp] theorem State.withFetchWord_phase (nbits w : Nat) : (s.withFetchWord nbits w).phase = s.phase := rfl
@[simp] theorem State.withFetchWord_crcAcc (nbits w : Nat) : (s.withFetchWord nbits w).crcAcc = s.crcAcc := rfl
@[simp] theorem State.withFetchWord_hist (nbits w : Nat) : (s.withFetchWord nbits w).hist = s.hist := rfl
@[simp] theorem State.withFetchWord_reads (nbits w : Nat) : (s.withFetchWord nbits w).reads = s.reads := rfl
@[simp] theorem State.withFetchWord_agenda (nbits w : Nat) : (s.withFetchWord nbits w).agenda = accessTurn (BitVec.ofNat 12 (w % 2 ^ nbits)) :: s.agenda := rfl
@[simp] theorem State.withFetchWord_steps (nbits w : Nat) : (s.withFetchWord nbits w).steps = s.steps := rfl

end Sys2Proof.Machine
end

