-- ==== Sys2Proof/Laws/Ops.lean ====
section
/-! SUPPORT. What each shared operation can do, said once: the operations with a case split, the host's
accesses and the step. -/

namespace Sys2Proof.Machine

/-- A command code the engine accepts when not busy (40_bus_commands.md R100). -/
def acceptable (c : Code) (s : State) : Prop :=
  c ≠ 0b000#3 ∧ reservedCode c = false ∧ (needsOpen c = true → s.opened = true)

@[simp] theorem kind_start : kind 0b001#3 = .start := rfl
@[simp] theorem kind_stop : kind 0b010#3 = .stop := rfl
@[simp] theorem kind_write : kind 0b011#3 = .write := rfl
@[simp] theorem kind_readAck : kind 0b100#3 = .readAck := rfl
@[simp] theorem kind_readNack : kind 0b101#3 = .readNack := rfl

theorem kind_ne_none_of_acceptable {c : Code} {s : State} (h : acceptable c s) : kind c ≠ .none := by
  have h0 := h.1
  have hr := h.2.1
  clear h
  revert c
  decide

/-- Each flag at its bit of the status byte (10_state.md R22 to R28). -/
theorem statusByte_bits (s : State) :
    (statusByte s).getLsbD 0 = s.done ∧ (statusByte s).getLsbD 1 = s.busy ∧
    (statusByte s).getLsbD 2 = s.opened ∧ (statusByte s).getLsbD 3 = s.nack ∧
    (statusByte s).getLsbD 4 = s.err ∧ (statusByte s).getLsbD 5 = s.wcol := by
  unfold statusByte
  cases s.done <;> cases s.busy <;> cases s.opened <;> cases s.nack <;> cases s.err <;> cases s.wcol <;> decide

theorem ctrlWrite_busy {c : Code} {s : State} (h : s.busy = true) : ctrlWrite c s = collide s := by
  simp [ctrlWrite, h]

theorem ctrlWrite_nop {s : State} (h : s.busy = false) : ctrlWrite 0b000#3 s = s := by
  simp [ctrlWrite, h]

theorem ctrlWrite_reserved {c : Code} {s : State} (h : s.busy = false) (hc : reservedCode c = true) :
    ctrlWrite c s = reject s := by
  have : c ≠ 0b000#3 := by rintro rfl; exact absurd hc (by decide)
  simp [ctrlWrite, h, hc, this]

theorem ctrlWrite_closed {c : Code} {s : State} (h : s.busy = false) (hc : needsOpen c = true)
    (ho : s.opened = false) : ctrlWrite c s = reject s := by
  have : c ≠ 0b000#3 := by rintro rfl; exact absurd hc (by decide)
  simp [ctrlWrite, h, hc, ho, this]

theorem ctrlWrite_accept {c : Code} {s : State} (h : s.busy = false) (hc : acceptable c s) :
    ctrlWrite c s = accept c s := by
  obtain ⟨h0, hr, ho⟩ := hc
  by_cases hn : needsOpen c = true
  · simp [ctrlWrite, h, h0, hr, ho hn]
  · simp [ctrlWrite, h, h0, hr, hn]

/-- Everything a CTRL write can do (40_bus_commands.md R100). -/
theorem ctrlWrite_cases (c : Code) (s : State) :
    (s.busy = true ∧ ctrlWrite c s = collide s) ∨
    (s.busy = false ∧ c = 0b000#3 ∧ ctrlWrite c s = s) ∨
    (s.busy = false ∧ (reservedCode c = true ∨ needsOpen c = true ∧ s.opened = false) ∧
      ctrlWrite c s = reject s) ∨
    (s.busy = false ∧ acceptable c s ∧ ctrlWrite c s = accept c s) := by
  cases hb : s.busy with
  | true => exact .inl ⟨rfl, ctrlWrite_busy hb⟩
  | false =>
    right
    by_cases h0 : c = 0b000#3
    · exact .inl ⟨rfl, h0, h0 ▸ ctrlWrite_nop hb⟩
    right
    by_cases hr : reservedCode c = true
    · exact .inl ⟨rfl, .inl hr, ctrlWrite_reserved hb hr⟩
    by_cases hn : needsOpen c = true ∧ s.opened = false
    · exact .inl ⟨rfl, .inr hn, ctrlWrite_closed hb hn.1 hn.2⟩
    have ha : acceptable c s := ⟨h0, by simpa using hr, fun h => by simpa [h] using hn⟩
    exact .inr ⟨rfl, ha, ctrlWrite_accept hb ha⟩

theorem dataWrite_busy {d : Byte} {s : State} (h : s.busy = true) : dataWrite d s = collide s := by
  simp [dataWrite, h]

theorem dataWrite_free {d : Byte} {s : State} (h : s.busy = false) : dataWrite d s = { s with data := d } := by
  simp [dataWrite, h]

theorem dataByte_busy {s : State} (h : s.busy = true) : dataByte s = Config.unspecifiedByte s := by
  simp [dataByte, h]

theorem dataByte_free {s : State} (h : s.busy = false) : dataByte s = s.data := by
  simp [dataByte, h]

/-- Everything a completion can do (40_bus_commands.md R108). -/
theorem complete_cases (d : Draw) (s : State) :
    (s.phase = .none ∧ complete d s = s) ∨
    (s.phase = .start ∧ complete d s = finish (completeStart s)) ∨
    (s.phase = .stop ∧ complete d s = finish (completeStop s)) ∨
    (s.phase = .write ∧ complete d s = finish (completeWrite d.ack s)) ∨
    (s.phase = .readAck ∧ complete d s = finish (completeRead d.byte .ack s)) ∨
    (s.phase = .readNack ∧ complete d s = finish (completeRead d.byte .nack s)) := by
  cases h : s.phase <;> simp [complete, h]

/-- A completion looks at no field of the world around the block, and leaves those fields alone. -/
theorem complete_world (d : Draw) (s : State) (r : List Byte) (a : List Turn) (n : Nat) :
    complete d { s with reads := r, agenda := a, steps := n } =
      { complete d s with reads := r, agenda := a, steps := n } := by
  obtain ⟨_, _, _, _, _, _, _, _, p, _, _, _, _, _⟩ := s
  cases p <;> rfl

/-- Everything a host access to the window can do to the state: the effects the rows share. -/
inductive HostEffect (s : State) : State → Prop where
  | nothing : HostEffect s s
  | collides : s.busy = true → HostEffect s (collide s)
  | rejects : s.busy = false → HostEffect s (reject s)
  | accepts (c : Code) : s.busy = false → acceptable c s → HostEffect s (accept c s)
  | loads (d : Byte) : s.busy = false → HostEffect s { s with data := d }
  | clears (d : Byte) : HostEffect s (clearFlags d s)
  | answers (v : Byte) : HostEffect s (answer v s)
  | sums (v : Byte) : HostEffect s (setCrcAcc v s)

theorem ctrlWrite_effect (c : Code) (s : State) : HostEffect s (ctrlWrite c s) := by
  obtain ⟨hb, h⟩ | ⟨_, _, h⟩ | ⟨hb, _, h⟩ | ⟨hb, ha, h⟩ := ctrlWrite_cases c s <;> rw [h]
  · exact .collides hb
  · exact .nothing
  · exact .rejects hb
  · exact .accepts c hb ha

theorem dataWrite_effect (d : Byte) (s : State) : HostEffect s (dataWrite d s) := by
  cases hb : s.busy with
  | true => exact dataWrite_busy hb ▸ .collides hb
  | false => exact dataWrite_free hb ▸ .loads d hb

/-- The inversion lemma of `exec`. -/
theorem exec_effect {i : Instr} {s t : State} (h : exec i s = .next t) : HostEffect s t := by
  cases i <;> cases h <;>
    first
    | exact .nothing
    | exact ctrlWrite_effect _ _
    | exact dataWrite_effect _ _
    | exact .clears _
    | exact .answers _
    | exact .sums _

/-- The inversion lemma of one turn: reset, a completion, nothing, or the effect of a decoded access. -/
theorem takeTurn_cases {t : Turn} {s u : State} (h : takeTurn t s = .next u) :
    (t.reset = true ∧ u = resetBlock s) ∨
    (∃ d, t = ⟨false, .engine d⟩ ∧ u = complete d s) ∨
    (t.reset = false ∧ (∀ d, t.action ≠ .engine d) ∧ u = s) ∨
    (t.reset = false ∧ (∀ d, t.action ≠ .engine d) ∧
      ∃ w, t.hostWord = some w ∧ exec (decode w) s = .next u) := by
  obtain ⟨r, act⟩ := t
  cases r with
  | true => exact .inl ⟨rfl, by cases h; rfl⟩
  | false =>
    right
    cases act with
    | access w => exact .inr (.inr ⟨rfl, by simp, w, rfl, h⟩)
    | bus a =>
      change takeBusAccess a s = .next u at h
      unfold takeBusAccess at h
      split at h
      · cases h; exact .inr (.inl ⟨rfl, by simp, rfl⟩)
      · rename_i ht
        split at h
        · cases h
        · rename_i hw
          exact .inr (.inr ⟨rfl, by simp, a.word, by simp_all [Turn.hostWord], h⟩)
    | engine d => exact .inl ⟨d, rfl, by cases h; rfl⟩
    | idle => exact .inr (.inl ⟨rfl, by simp, by cases h; rfl⟩)

/-- A turn leaves the agenda and the step count alone: `turnTaken` has dealt with both. -/
theorem takeTurn_world {t : Turn} {s u : State} (h : takeTurn t s = .next u) :
    u.agenda = s.agenda ∧ u.steps = s.steps := by
  obtain ⟨_, rfl⟩ | ⟨d, _, rfl⟩ | ⟨_, _, rfl⟩ | ⟨_, _, _, _, h⟩ := takeTurn_cases h
  · exact ⟨rfl, rfl⟩
  · obtain ⟨_, h⟩ | ⟨_, h⟩ | ⟨_, h⟩ | ⟨_, h⟩ | ⟨_, h⟩ | ⟨_, h⟩ := complete_cases d s <;> rw [h] <;> exact ⟨rfl, rfl⟩
  · exact ⟨rfl, rfl⟩
  · cases exec_effect h <;> exact ⟨rfl, rfl⟩

/-- An access touches the window when one of its addresses lies in BASE to BASE + 7. -/
theorem touchesWindow_iff (a : BusAccess) : a.touchesWindow = true ↔
    a.addr < Config.base + 8 ∧ Config.base < a.addr + max a.width 1 := by
  rw [BusAccess.touchesWindow, Bool.and_eq_true, decide_eq_true_iff, decide_eq_true_iff]; rfl

@[simp] theorem nextTurn_cons {s : State} {t : Turn} {rest : List Turn} (h : s.agenda = t :: rest) :
    nextTurn s = t := by
  simp [nextTurn, h]

theorem step_cons {s : State} {t : Turn} {rest : List Turn} (h : s.agenda = t :: rest) :
    step s = takeTurn t { s with agenda := rest, steps := s.steps + 1 } := by
  simp [step, nextTurn, turnTaken, h]

theorem step_nil {s : State} (h : s.agenda = []) :
    step s = takeTurn (Config.environment s) { s with agenda := [], steps := s.steps + 1 } := by
  simp [step, nextTurn, turnTaken, h]

end Sys2Proof.Machine
end

