-- ==== Sys2Proof/Laws/HostProgram.lean ====
section
/-! SUPPORT. Host programs: the laws of `bind`, what each line does to the block, what holds at the end of
every run of a program (`Ensures`, one rule for each kind of line), and that some run reaches the end
(`Finishes`, likewise). -/

namespace Sys2Proof.Machine

variable {α β γ : Type}

@[simp] theorem bind_done (a : α) (f : α → Program β) : (Program.done a).bind f = f a := rfl
@[simp] theorem bind_write (i : Instr) (p : Program α) (f : α → Program β) :
    (Program.write i p).bind f = .write i (p.bind f) := rfl
@[simp] theorem bind_read (i : Instr) (p : Byte → Program α) (f : α → Program β) :
    (Program.read i p).bind f = .read i fun v => (p v).bind f := rfl
@[simp] theorem bind_poll (p : Program α) (f : α → Program β) : (Program.poll p).bind f = .poll (p.bind f) := rfl
@[simp] theorem bind_wait (p : Program α) (f : α → Program β) : (Program.wait p).bind f = .wait (p.bind f) := rfl

@[simp] theorem bind_assoc (p : Program α) (f : α → Program β) (g : β → Program γ) :
    (p.bind f).bind g = p.bind fun a => (f a).bind g := by
  induction p with
  | done a => rfl
  | write i p ih => simp [ih]
  | read i p ih => simp [ih]
  | poll p ih => simp [ih]
  | wait p ih => simp [ih]

@[simp] theorem bind_waits (n : Nat) (p : Program α) (f : α → Program β) :
    (Program.waits n p).bind f = Program.waits n (p.bind f) := by
  induction n with
  | zero => rfl
  | succ n ih => simp [Program.waits, ih]

@[simp] theorem writes_nil (p : Program α) : Program.writes [] p = p := rfl
@[simp] theorem writes_cons (i : Instr) (is : List Instr) (p : Program α) :
    Program.writes (i :: is) p = .write i (Program.writes is p) := rfl
@[simp] theorem reads_nil : Program.reads [] = .done [] := rfl
@[simp] theorem reads_cons (i : Instr) (is : List Instr) :
    Program.reads (i :: is) = .read i fun v => (Program.reads is).bind fun vs => .done (v :: vs) := rfl

@[simp] theorem bind_sequence_nil (f : List Byte → Program α) : (Program.sequence []).bind f = f [] := rfl
@[simp] theorem bind_sequence_cons (p : Primitive) (ps : List Primitive) (f : List Byte → Program α) :
    (Program.sequence (p :: ps)).bind f =
      p.program.bind fun v => (Program.sequence ps).bind fun vs => f (v ++ vs) := by
  simp [Program.sequence]

/-! What a line does to the block -/

theorem takeNow_eq (t : Turn) (s : State) : takeNow t s = takeTurn t { s with steps := s.steps + 1 } := rfl

theorem takeNow_idle (s : State) : takeNow idleTurn s = .next { s with steps := s.steps + 1 } := rfl

theorem takeNow_engine (d : Draw) (s : State) :
    takeNow (engineTurn d) s = .next { complete d s with steps := s.steps + 1 } := by
  obtain ⟨_, _, _, _, _, _, _, _, p, _, _, _, _, _⟩ := s
  cases p <;> rfl

/-- A completion does the same to the block whatever has been read and however many steps were taken. -/
theorem complete_later (d : Draw) (s : State) (r r' : List Byte) (n n' : Nat) :
    { complete d { s with reads := r, steps := n } with reads := r', steps := n' } =
      { complete d s with reads := r', steps := n' } := by
  obtain ⟨_, _, _, _, _, _, _, _, p, _, _, _, _, _⟩ := s
  cases p <;> rfl

/-- With no phase in flight the engine's turn only counts the step. -/
theorem takeNow_engine_none (d : Draw) {s : State} (h : s.phase = .none) :
    takeNow (engineTurn d) s = .next { s with steps := s.steps + 1 } := by
  rw [takeNow_engine]; simp [complete, h]

/-- A completion with a phase in flight ends the phase. -/
theorem complete_ends (d : Draw) {s : State} (h : s.phase ≠ .none) :
    (complete d s).phase = .none ∧ (complete d s).busy = false ∧ (complete d s).done = true := by
  obtain ⟨e, _⟩ | ⟨_, e⟩ | ⟨_, e⟩ | ⟨_, e⟩ | ⟨_, e⟩ | ⟨_, e⟩ := complete_cases d s
  · exact absurd e h
  all_goals rw [e]; exact ⟨rfl, rfl, rfl⟩

theorem hostAccess_eq (i : Instr) (s : State) :
    hostAccess i s = exec (decode (assemble i)) { s with steps := s.steps + 1 } := rfl

theorem hostAccess_crcInit (s : State) :
    hostAccess .crcInit s = .next { s with crcAcc := crcSeed, steps := s.steps + 1 } := rfl
theorem hostAccess_crcFeed (b : Byte) (s : State) :
    hostAccess (.crcFeed b) s = .next { s with crcAcc := crc8Step s.crcAcc b, steps := s.steps + 1 } := by
  rw [hostAccess_eq, assemble, Instr.clearIgnored, encode, decode_write]; rfl
theorem hostAccess_rdCrcAcc (s : State) :
    hostAccess .rdCrcAcc s = .next (answer s.crcAcc { s with steps := s.steps + 1 }) := rfl
theorem hostAccess_wrData (b : Byte) (s : State) :
    hostAccess (.wrData b) s = .next (dataWrite b { s with steps := s.steps + 1 }) := by
  rw [hostAccess_eq, assemble, Instr.clearIgnored, encode, decode_write]; rfl
theorem hostAccess_rdData (s : State) :
    hostAccess .rdData s =
      .next (answer (dataByte { s with steps := s.steps + 1 }) { s with steps := s.steps + 1 }) := rfl

/-- A read line gets the byte its access answers. -/
theorem resume_answer (i : Instr) (next : Byte → Program α) (s t : State) (v : Byte) (h : t.reads = s.reads) :
    Program.resume i next s (answer v t) = next v := by
  simp [Program.resume, h]

/-- The host's turn at a `poll`: on to the next line where DONE is 1, else back to the `poll`. -/
theorem hostTurn_poll (next : Program α) (s : State) :
    (Program.poll next).hostTurn s =
      .next (if s.done then next else .poll next,
        answer (statusByte s) { s with steps := s.steps + 1 }) := by
  show Host.Outcome.next (Program.resume .rdStatus _ s (answer (statusByte s) { s with steps := s.steps + 1 }), _) = _
  rw [resume_answer .rdStatus _ s { s with steps := s.steps + 1 } _ rfl, (statusByte_bits s).1]
  rfl

/-! Where a run ends -/

@[simp] theorem result?_done (a : α) : (Program.done a).result? = some a := rfl
@[simp] theorem result?_write (i : Instr) (p : Program α) : (Program.write i p).result? = none := rfl
@[simp] theorem result?_read (i : Instr) (p : Byte → Program α) : (Program.read i p).result? = none := rfl
@[simp] theorem result?_poll (p : Program α) : (Program.poll p).result? = none := rfl
@[simp] theorem result?_wait (p : Program α) : (Program.wait p).result? = p.result? := rfl

/-- A run has ended where the program has a result and no phase is in flight (20_memory.md R66). -/
theorem ended_iff {p : Program α} {s : State} :
    p.ended s = true ↔ (∃ a, p.result? = some a) ∧ s.phase = .none := by
  simp [Program.ended, Option.isSome_iff_exists]

theorem runEnd_of_ended {p : Program α} {s : State} (h : p.ended s = true) (xs : List Instant) :
    p.runEnd xs s = some (p, s) := by
  cases xs <;> simp [Program.runEnd, h]

theorem runEnd_cons {x : Instant} {xs : List Instant} {p q : Program α} {s t : State} (he : p.ended s = false)
    (h : p.instant x s = .next (q, t)) : p.runEnd (x :: xs) s = q.runEnd xs t := by
  simp [Program.runEnd, he, h]

/-- The end of a run is where some first part of it leads, the condition of R66 holds there, and it holds at
no point before. -/
theorem runEnd_cases {xs : List Instant} {p q : Program α} {s t : State} (h : p.runEnd xs s = some (q, t)) :
    ∃ ys zs, xs = ys ++ zs ∧ p.run ys s = .next (q, t) ∧ q.ended t = true ∧
      ∀ us v vs, ys = us ++ v :: vs → ∀ r u, p.run us s = .next (r, u) → r.ended u = false := by
  induction xs generalizing p s with
  | nil =>
    simp only [Program.runEnd] at h
    split at h
    · rename_i he; cases h; exact ⟨[], [], rfl, rfl, he, by simp⟩
    · cases h
  | cons x xs ih =>
    by_cases he : p.ended s = true
    · rw [runEnd_of_ended he] at h
      cases h
      exact ⟨[], x :: xs, rfl, rfl, he, by simp⟩
    · simp only [Program.runEnd, he, Bool.false_eq_true, if_false] at h
      split at h
      · rename_i p' s' hi
        obtain ⟨ys, zs, rfl, hr, hq, hm⟩ := ih h
        refine ⟨x :: ys, zs, rfl, by simpa only [Program.run, hi] using hr, hq, fun us v vs e r u hu => ?_⟩
        cases us with
        | nil => cases hu; exact Bool.eq_false_iff.mpr he
        | cons w us =>
          cases e
          exact hm us v vs rfl r u (by simpa only [Program.run, hi] using hu)
      · cases h
      · cases h

/-- What comes after the end of a run does not change it. -/
theorem runEnd_append {xs : List Instant} {p : Program α} {s : State} {e : Program α × State}
    (h : p.runEnd xs s = some e) (ys : List Instant) : p.runEnd (xs ++ ys) s = some e := by
  induction xs generalizing p s with
  | nil =>
    simp only [Program.runEnd] at h
    split at h
    · rename_i he; rw [← h]; exact runEnd_of_ended he _
    · cases h
  | cons x xs ih =>
    by_cases he : p.ended s = true
    · rw [runEnd_of_ended he] at h ⊢; exact h
    · simp only [Program.runEnd, List.cons_append, he, Bool.false_eq_true, if_false] at h ⊢
      split at h
      · exact ih h
      · cases h
      · cases h

/-- No access of the host ends a phase in flight. -/
theorem hostAccess_keepsPhase {i : Instr} {s t : State} (hs : s.phase ≠ .none) (h : hostAccess i s = .next t) :
    t.phase ≠ .none := by
  cases exec_effect (s := { s with steps := s.steps + 1 }) h with
  | accepts c _ ha => exact kind_ne_none_of_acceptable ha
  | _ => exact hs

/-- Nor does an instant that is neither the engine's nor a reset. -/
theorem instant_keepsPhase {x : Instant} {p q : Program α} {s t : State} (hx : ∀ d, x ≠ .engine d)
    (hr : x ≠ .reset) (hs : s.phase ≠ .none) (h : p.instant x s = .next (q, t)) : t.phase ≠ .none := by
  have after_next {f : State → Program α} {o : Host.Outcome State Fault Refusal}
      (h : Program.after f o = .next (q, t)) : o = .next t := by
    cases o <;> cases h; rfl
  cases x with
  | engine d => exact absurd rfl (hx d)
  | reset => exact absurd rfl hr
  | idle => cases h; exact hs
  | host =>
    cases p with
    | done a => cases h; exact hs
    | wait next => cases h; exact hs
    | write i next => exact hostAccess_keepsPhase hs (after_next h)
    | read i next => exact hostAccess_keepsPhase hs (after_next h)
    | poll next =>
      change Program.after _ (hostAccess .rdStatus s) = _ at h
      exact hostAccess_keepsPhase hs (after_next h)

/-- "A run in which a phase never completes does not end" (20_memory.md R66). -/
theorem runEnd_of_hang {xs : List Instant} {p : Program α} {s : State} (hx : ∀ d, .engine d ∉ xs)
    (hr : .reset ∉ xs) (hs : s.phase ≠ .none) : p.runEnd xs s = none := by
  have he (p : Program α) {s : State} (hs : s.phase ≠ .none) : p.ended s = false := by simp [Program.ended, hs]
  induction xs generalizing p s with
  | nil => simp [Program.runEnd, he p hs]
  | cons x xs ih =>
    simp only [List.mem_cons, not_or] at hx hr
    simp only [Program.runEnd, he p hs, Bool.false_eq_true, if_false]
    split
    · rename_i q t hi
      exact ih (fun d => (hx d).2) hr.2 (instant_keepsPhase (fun d => Ne.symm (hx d).1) (Ne.symm hr.1) hs hi)
    · rfl
    · rfl

/-! What holds at the end of every run -/

/-- Every run of `p` from `s` without a reset that comes to the end of `p` ends in `Post`. -/
def Program.Ensures (p : Program α) (s : State) (Post : α → State → Prop) : Prop :=
  ∀ (xs : List Instant) (a : α) (t : State), .reset ∉ xs → p.run xs s = .next (.done a, t) → Post a t

theorem run_cons {x : Instant} {xs : List Instant} {p q : Program α} {s t : State}
    (h : p.instant x s = .next (q, t)) : p.run (x :: xs) s = q.run xs t := by
  simp only [Program.run, h]

/-- An instant at which the host has no turn, with no phase in flight, only counts the step. -/
theorem instant_quiet {x : Instant} (hx : x ≠ .host) (hr : x ≠ .reset) (p : Program α) {s : State}
    (h : s.phase = .none) : p.instant x s = .next (p, { s with steps := s.steps + 1 }) := by
  cases x with
  | host => exact absurd rfl hx
  | engine d => simp only [Program.instant, takeNow_engine_none d h, Program.after]
  | idle => rfl
  | reset => exact absurd rfl hr

/-- With no phase in flight and the program not at its end: what the host's next turn ensures, whenever it
comes. -/
theorem ensures_of_hostTurn {p : Program α} {s : State} {Post : α → State → Prop} (hs : s.phase = .none)
    (hp : ∀ a, p ≠ .done a)
    (h : ∀ n q t, p.hostTurn { s with steps := n } = .next (q, t) → q.Ensures t Post) : p.Ensures s Post := by
  intro xs
  induction xs generalizing s with
  | nil => intro a t _ e; cases e; exact absurd rfl (hp a)
  | cons x xs ih =>
    intro a t hx e
    simp only [List.mem_cons, not_or] at hx
    by_cases hh : x = .host
    · subst hh
      simp only [Program.run, Program.instant] at e
      split at e
      · rename_i q u hq; exact h s.steps q u hq xs a t hx.2 e
      · cases e
      · cases e
    · rw [run_cons (instant_quiet hh (Ne.symm hx.1) p hs)] at e
      exact ih (s := { s with steps := s.steps + 1 }) hs h a t hx.2 e

theorem ensures_done {a : α} {s : State} {Post : α → State → Prop} (hs : s.phase = .none)
    (h : ∀ n, Post a { s with steps := n }) : (Program.done a).Ensures s Post := by
  intro xs
  induction xs generalizing s with
  | nil => intro b t _ e; cases e; exact h s.steps
  | cons x xs ih =>
    intro b t hx e
    simp only [List.mem_cons, not_or] at hx
    have : (Program.done a).instant x s = .next (.done a, { s with steps := s.steps + 1 }) := by
      by_cases hh : x = .host
      · subst hh; rfl
      · exact instant_quiet hh (Ne.symm hx.1) _ hs
    rw [run_cons this] at e
    exact ih (s := { s with steps := s.steps + 1 }) hs h b t hx.2 e

theorem ensures_write {i : Instr} {next : Program α} {s : State} {Post : α → State → Prop}
    (hs : s.phase = .none)
    (h : ∀ n t, hostAccess i { s with steps := n } = .next t → next.Ensures t Post) :
    (Program.write i next).Ensures s Post := by
  refine ensures_of_hostTurn hs (by simp) fun n q t e => ?_
  simp only [Program.hostTurn, Program.after] at e
  split at e
  · rename_i u hu; cases e; exact h n _ hu
  · cases e
  · cases e

/-- A read line whose access answers `v` and changes nothing else. -/
theorem ensures_read {i : Instr} {next : Byte → Program α} {s : State} {Post : α → State → Prop} (v : Byte)
    (hs : s.phase = .none)
    (hv : ∀ n, hostAccess i { s with steps := n } = .next (answer v { s with steps := n + 1 }))
    (h : ∀ r n, (next v).Ensures { s with reads := r, steps := n } Post) : (Program.read i next).Ensures s Post := by
  refine ensures_of_hostTurn hs (by simp) fun n q t e => ?_
  rw [Program.hostTurn, hv n, Program.after,
    resume_answer i next { s with steps := n } { s with steps := n + 1 } v rfl] at e
  cases e
  exact h _ _

theorem ensures_wait {next : Program α} {s : State} {Post : α → State → Prop} (hs : s.phase = .none)
    (h : ∀ n, next.Ensures { s with steps := n } Post) : (Program.wait next).Ensures s Post := by
  refine ensures_of_hostTurn hs (by simp) fun n q t e => ?_
  cases e
  exact h (n + 1)

theorem ensures_waits {next : Program α} {s : State} {Post : α → State → Prop} (k : Nat) (hs : s.phase = .none)
    (h : ∀ n, next.Ensures { s with steps := n } Post) : (Program.waits k next).Ensures s Post := by
  induction k generalizing s with
  | zero => exact h s.steps
  | succ k ih => exact ensures_wait hs fun n => ih hs h

/-- A `poll` after the completion ends at its first read. -/
theorem ensures_poll_done {next : Program α} {s : State} {Post : α → State → Prop} (hs : s.phase = .none)
    (hd : s.done = true) (h : ∀ r n, next.Ensures { s with reads := r, steps := n } Post) :
    (Program.poll next).Ensures s Post := by
  refine ensures_of_hostTurn hs (by simp) fun n q t e => ?_
  rw [hostTurn_poll, if_pos hd] at e
  cases e
  exact h _ (n + 1)

/-- A `poll` with a phase in flight ends after its completion, whatever the answers and the pace. -/
theorem ensures_poll {next : Program α} {s : State} {Post : α → State → Prop} (hs : s.phase ≠ .none)
    (hd : s.done = false)
    (h : ∀ d r n, next.Ensures { complete d s with reads := r, steps := n } Post) :
    (Program.poll next).Ensures s Post := by
  intro xs
  induction xs generalizing s with
  | nil => intro a t _ e; cases e
  | cons x xs ih =>
    intro a t hx e
    simp only [List.mem_cons, not_or] at hx
    cases x with
    | host =>
      have hp : (Program.poll next).instant .host s = _ := hostTurn_poll next s
      rw [run_cons hp, if_neg (by simp [hd])] at e
      refine ih (s := answer (statusByte s) { s with steps := s.steps + 1 }) hs hd (fun d r n => ?_) a t hx.2 e
      have e := h d r n
      rw [← complete_later d s (s.reads ++ [statusByte s]) r (s.steps + 1) n] at e
      exact e
    | engine d =>
      rw [run_cons (q := .poll next) (t := { complete d s with steps := s.steps + 1 })
        (by rw [Program.instant, takeNow_engine]; rfl)] at e
      exact ensures_poll_done (s := { complete d s with steps := s.steps + 1 }) (complete_ends d hs).1
        (complete_ends d hs).2.2 (fun r n => h d r n) xs a t hx.2 e
    | idle =>
      refine ih (s := { s with steps := s.steps + 1 }) hs hd (fun d r n => ?_) a t hx.2 e
      have e := h d r n
      rw [← complete_later d s s.reads r (s.steps + 1) n] at e
      exact e
    | reset => exact absurd rfl hx.1

/-! That some run reaches the end -/

/-- Some run of `p` from `s` without a reset comes to the end of `p`. -/
def Program.Finishes (p : Program α) (s : State) : Prop :=
  ∃ (xs : List Instant) (a : α) (t : State), .reset ∉ xs ∧ p.run xs s = .next (.done a, t)

theorem finishes_done (a : α) (s : State) : (Program.done a).Finishes s := ⟨[], a, s, by simp, rfl⟩

theorem finishes_cons {x : Instant} {p q : Program α} {s t : State} (hx : x ≠ .reset)
    (h : p.instant x s = .next (q, t)) (hq : q.Finishes t) : p.Finishes s := by
  obtain ⟨xs, a, u, hr, hu⟩ := hq
  exact ⟨x :: xs, a, u, by simp [Ne.symm hx, hr], (run_cons h).trans hu⟩

theorem finishes_write {i : Instr} {next : Program α} {s t : State} (h : hostAccess i s = .next t)
    (hq : next.Finishes t) : (Program.write i next).Finishes s :=
  finishes_cons (x := .host) (by decide) (by rw [Program.instant, Program.hostTurn, h]; rfl) hq

theorem finishes_read {i : Instr} {next : Byte → Program α} {s t : State} {v : Byte}
    (h : hostAccess i s = .next (answer v t)) (ht : t.reads = s.reads) (hq : (next v).Finishes (answer v t)) :
    (Program.read i next).Finishes s :=
  finishes_cons (x := .host) (by decide)
    (by rw [Program.instant, Program.hostTurn, h, Program.after, resume_answer i next s t v ht]) hq

theorem finishes_waits (k : Nat) {next : Program α} {s : State} (h : ∀ n, next.Finishes { s with steps := n }) :
    (Program.waits k next).Finishes s := by
  induction k generalizing s with
  | zero => exact h s.steps
  | succ k ih => exact finishes_cons (x := .host) (by decide) rfl (ih fun n => h n)

/-- A `poll` with a phase in flight, which the engine completes with the answers `d`. -/
theorem finishes_poll (d : Draw) {next : Program α} {s : State} (hs : s.phase ≠ .none)
    (h : ∀ r n, next.Finishes { complete d s with reads := r, steps := n }) : (Program.poll next).Finishes s := by
  refine finishes_cons (x := .engine d) (q := .poll next) (t := { complete d s with steps := s.steps + 1 })
    (by simp) (by rw [Program.instant, takeNow_engine]; rfl) ?_
  refine finishes_cons (x := .host) (by decide) (hostTurn_poll next _) ?_
  rw [if_pos (complete_ends d hs).2.2]
  exact h _ _

/-! The primitives -/

/-- What a primitive whose phase has the answers `d` leaves of the state it starts in: `s` before it and `t`
after it (42_transport_primitives.md R172 to R176). -/
structure PrimitiveDone (p : Primitive) (d : Draw) (s t : State) : Prop where
  phase : t.phase = .none
  busy : t.busy = false
  opened : t.opened = decide (p ≠ .stop)
  hist : t.hist = s.hist ++ [PrimitiveRun.event ⟨p, 0, d⟩]
  err : t.err = s.err
  wcol : t.wcol = s.wcol
  crcAcc : t.crcAcc = s.crcAcc

/-- A command that the engine accepts. -/
theorem hostAccess_accept {i : Instr} {c : Code} (hi : ∀ u, exec (decode (assemble i)) u = .next (ctrlWrite c u))
    {s : State} (hb : s.busy = false) (hc : acceptable c s) :
    hostAccess i s = .next (accept c { s with steps := s.steps + 1 }) := by
  rw [hostAccess_eq, hi, ctrlWrite_accept (s := { s with steps := s.steps + 1 }) hb hc]

theorem hostAccess_wrData_free (b : Byte) {s : State} (hb : s.busy = false) :
    hostAccess (.wrData b) s = .next { s with data := b, steps := s.steps + 1 } := by
  rw [hostAccess_wrData, dataWrite_free (s := { s with steps := s.steps + 1 }) hb]

theorem hostAccess_rdData_free {s : State} (hb : s.busy = false) :
    hostAccess .rdData s = .next (answer s.data { s with steps := s.steps + 1 }) := by
  rw [hostAccess_rdData, dataByte_free (s := { s with steps := s.steps + 1 }) hb]

/-- An accepted command and its `poll`. -/
theorem ensures_phase {i : Instr} {c : Code} {next : Program α} {s : State} {Post : α → State → Prop}
    (hi : ∀ u, exec (decode (assemble i)) u = .next (ctrlWrite c u)) (hs : s.phase = .none)
    (hb : s.busy = false) (hc : acceptable c s)
    (h : ∀ d r n, next.Ensures { complete d (accept c s) with reads := r, steps := n } Post) :
    (Program.write i (.poll next)).Ensures s Post := by
  refine ensures_write hs fun n t e => ?_
  rw [hostAccess_accept (s := { s with steps := n }) hi hb hc] at e
  cases e
  refine ensures_poll (kind_ne_none_of_acceptable hc) rfl fun d r m => ?_
  have e := h d r m
  rw [← complete_later d (accept c s) s.reads r (n + 1) m] at e
  exact e

theorem finishes_phase (d : Draw) {i : Instr} {c : Code} {next : Program α} {s : State}
    (hi : ∀ u, exec (decode (assemble i)) u = .next (ctrlWrite c u)) (hb : s.busy = false)
    (hc : acceptable c s)
    (h : ∀ r n, next.Finishes { complete d (accept c s) with reads := r, steps := n }) :
    (Program.write i (.poll next)).Finishes s := by
  refine finishes_write (hostAccess_accept hi hb hc) (finishes_poll d (kind_ne_none_of_acceptable hc) fun r n => ?_)
  have e := h r n
  rw [← complete_later d (accept c s) s.reads r (s.steps + 1) n] at e
  exact e

/-- What every run of a primitive ensures, from the mode it is meant for, is what it ensures after its
completion with every answer: its phase is over, its event is in the history, and it has received the byte
answered. -/
theorem ensures_primitive {p : Primitive} {f : List Byte → Program α} {s : State} {Post : α → State → Prop}
    (hs : s.phase = .none) (hb : s.busy = false) (ho : s.opened = decide (p ≠ .start))
    (h : ∀ d t, PrimitiveDone p d s t → (f (receivedBytes [⟨p, 0, d⟩])).Ensures t Post) :
    (p.program.bind f).Ensures s Post := by
  cases p with
  | start =>
    refine ensures_phase (c := 0b001#3) (fun _ => rfl) hs hb ⟨by decide, by decide, by simp [needsOpen]⟩ fun d r n => h d _ ?_
    constructor <;> simp [complete, PrimitiveRun.event, ho]
  | stop =>
    refine ensures_phase (c := 0b010#3) (fun _ => rfl) hs hb ⟨by decide, by decide, fun _ => ho⟩ fun d r n => h d _ ?_
    constructor <;> simp [complete, PrimitiveRun.event]
  | writeByte b =>
    refine ensures_write hs fun n t e => ?_
    rw [hostAccess_wrData_free b (s := { s with steps := n }) hb] at e
    cases e
    refine ensures_phase (c := 0b011#3) (fun _ => rfl) hs hb ⟨by decide, by decide, fun _ => ho⟩ fun d r n => h d _ ?_
    constructor <;> simp [complete, PrimitiveRun.event, ho]
  | readByteAck =>
    refine ensures_phase (c := 0b100#3) (fun _ => rfl) hs hb ⟨by decide, by decide, fun _ => ho⟩ fun d r n => ?_
    have e := complete_ends d (s := accept 0b100#3 s) (show kind 0b100#3 ≠ .none by decide)
    refine ensures_read d.byte e.1 (fun m => hostAccess_rdData_free e.2.1) fun r n => ?_
    refine h d _ ?_
    constructor <;> simp [complete, PrimitiveRun.event, ho]
  | readByteNack =>
    refine ensures_phase (c := 0b101#3) (fun _ => rfl) hs hb ⟨by decide, by decide, fun _ => ho⟩ fun d r n => ?_
    have e := complete_ends d (s := accept 0b101#3 s) (show kind 0b101#3 ≠ .none by decide)
    refine ensures_read d.byte e.1 (fun m => hostAccess_rdData_free e.2.1) fun r n => ?_
    refine h d _ ?_
    constructor <;> simp [complete, PrimitiveRun.event, ho]

/-- A primitive from the mode it is meant for finishes with whatever its completion with the answers `d`
finishes with. -/
theorem finishes_primitive (d : Draw) {p : Primitive} {f : List Byte → Program α} {s : State}
    (hb : s.busy = false) (ho : s.opened = decide (p ≠ .start))
    (h : ∀ t, PrimitiveDone p d s t → (f (receivedBytes [⟨p, 0, d⟩])).Finishes t) :
    (p.program.bind f).Finishes s := by
  cases p with
  | start =>
    refine finishes_phase d (c := 0b001#3) (fun _ => rfl) hb ⟨by decide, by decide, by simp [needsOpen]⟩
      fun r n => h _ ?_
    constructor <;> simp [complete, PrimitiveRun.event, ho]
  | stop =>
    refine finishes_phase d (c := 0b010#3) (fun _ => rfl) hb ⟨by decide, by decide, fun _ => ho⟩ fun r n => h _ ?_
    constructor <;> simp [complete, PrimitiveRun.event]
  | writeByte b =>
    refine finishes_write (hostAccess_wrData_free b hb) ?_
    refine finishes_phase d (c := 0b011#3) (fun _ => rfl) hb ⟨by decide, by decide, fun _ => ho⟩ fun r n => h _ ?_
    constructor <;> simp [complete, PrimitiveRun.event, ho]
  | readByteAck =>
    refine finishes_phase d (c := 0b100#3) (fun _ => rfl) hb ⟨by decide, by decide, fun _ => ho⟩ fun r n => ?_
    have e := complete_ends d (s := accept 0b100#3 s) (show kind 0b100#3 ≠ .none by decide)
    refine finishes_read (hostAccess_rdData_free e.2.1) rfl (h _ ?_)
    constructor <;> simp [complete, PrimitiveRun.event, ho]
  | readByteNack =>
    refine finishes_phase d (c := 0b101#3) (fun _ => rfl) hb ⟨by decide, by decide, fun _ => ho⟩ fun r n => ?_
    have e := complete_ends d (s := accept 0b101#3 s) (show kind 0b101#3 ≠ .none by decide)
    refine finishes_read (hostAccess_rdData_free e.2.1) rfl (h _ ?_)
    constructor <;> simp [complete, PrimitiveRun.event, ho]

/-! The check of a reading -/

/-- What a check leaves of the state it starts in: `s` before it and `t` after it (44_bus_transactions.md
R218). -/
structure CheckDone (r : Reading) (s t : State) : Prop where
  phase : t.phase = s.phase
  busy : t.busy = s.busy
  opened : t.opened = s.opened
  hist : t.hist = s.hist
  err : t.err = s.err
  wcol : t.wcol = s.wcol
  crcAcc : t.crcAcc = crcCompute [r.high, r.low]

/-- The program of a check, line by line. -/
theorem bind_checkReading (r : Reading) (f : Option (BitVec 16) → Program α) :
    (checkReading r).bind f =
      .write .crcInit (.write (.crcFeed r.high) (.write (.crcFeed r.low)
        (.read .rdCrcAcc fun v => f (r.verdict v)))) := rfl

theorem ensures_checkReading {r : Reading} {f : Option (BitVec 16) → Program α} {s : State}
    {Post : α → State → Prop} (hs : s.phase = .none)
    (h : ∀ t, CheckDone r s t → (f (verifyReading r)).Ensures t Post) :
    ((checkReading r).bind f).Ensures s Post := by
  rw [bind_checkReading]
  refine ensures_write hs fun n t e => ?_
  rw [hostAccess_crcInit] at e
  cases e
  refine ensures_write hs fun n t e => ?_
  rw [hostAccess_crcFeed] at e
  cases e
  refine ensures_write hs fun n t e => ?_
  rw [hostAccess_crcFeed] at e
  cases e
  exact ensures_read _ hs (fun n => hostAccess_rdCrcAcc _) fun _ _ => h _ ⟨rfl, rfl, rfl, rfl, rfl, rfl, rfl⟩

theorem finishes_checkReading {r : Reading} {f : Option (BitVec 16) → Program α} {s : State}
    (h : ∀ t, CheckDone r s t → (f (verifyReading r)).Finishes t) : ((checkReading r).bind f).Finishes s := by
  rw [bind_checkReading]
  refine finishes_write (hostAccess_crcInit s) (finishes_write (hostAccess_crcFeed r.high _)
    (finishes_write (hostAccess_crcFeed r.low _) ?_))
  exact finishes_read (hostAccess_rdCrcAcc _) rfl (h _ ⟨rfl, rfl, rfl, rfl, rfl, rfl, rfl⟩)

end Sys2Proof.Machine
end

