-- ==== Sys2Proof/Laws/PerInstr.lean ====
section
/-! SUPPORT. The family `Encodes`: the encoded word lies in its own row of the opcode map
(30_encoding.md R73, R80). -/

namespace Sys2Proof.Laws.Encodes

open Sys2Proof Sys2Proof.Machine

/-- The row of the opcode map with the instruction's mnemonic covers the encoded word. -/
def Statement (i : Instr) : Prop := ∃ r ∈ opcodeMap, r.mnemonic = mnemonic i ∧ r.covers (encode i) = true

/-- The low 8 bits of an access word are under no mask that keeps only bits 11:8. -/
theorem accessWord_and_high (b : Bool) (off : Offset) (d : Byte) (m : BitVec 4) :
    accessWord b off d &&& (m ++ 0x00#8) = ((BitVec.ofBool b ++ off) &&& m) ++ 0x00#8 := by
  unfold accessWord
  rw [BitVec.and_append]; simp

theorem nop : Statement .nop := ⟨⟨"NOP", 0x800#12, 0xF07#12⟩, by decide, rfl, by decide⟩

theorem start : Statement .start := ⟨⟨"START", 0x801#12, 0xF07#12⟩, by decide, rfl, by decide⟩

theorem stop : Statement .stop := ⟨⟨"STOP", 0x802#12, 0xF07#12⟩, by decide, rfl, by decide⟩

theorem write : Statement .write := ⟨⟨"WRITE", 0x803#12, 0xF07#12⟩, by decide, rfl, by decide⟩

theorem readAck : Statement .readAck := ⟨⟨"READ_ACK", 0x804#12, 0xF07#12⟩, by decide, rfl, by decide⟩

theorem readNack : Statement .readNack := ⟨⟨"READ_NACK", 0x805#12, 0xF07#12⟩, by decide, rfl, by decide⟩

theorem cmdRsv (c : BitVec 1) : Statement (.cmdRsv c) := ⟨⟨"CMD_RSV", 0x806#12, 0xF06#12⟩, by decide, rfl, by revert c; decide⟩

theorem wrStatus (imm8 : Byte) : Statement (.wrStatus imm8) := by
  refine ⟨⟨"WR_STATUS", 0x900#12, 0xF00#12⟩, by decide, rfl, beq_iff_eq.mpr ?_⟩
  exact accessWord_and_high _ _ _ 0xF#4

theorem wrData (imm8 : Byte) : Statement (.wrData imm8) := by
  refine ⟨⟨"WR_DATA", 0xA00#12, 0xF00#12⟩, by decide, rfl, beq_iff_eq.mpr ?_⟩
  exact accessWord_and_high _ _ _ 0xF#4

theorem wrRsv (o : BitVec 1) (imm8 : Byte) : Statement (.wrRsv o imm8) := by
  refine ⟨⟨"WR_RSV", 0xB00#12, 0xB00#12⟩, by decide, rfl, beq_iff_eq.mpr ?_⟩
  obtain rfl | rfl : o = 0#1 ∨ o = 1#1 := by revert o; decide
  all_goals exact accessWord_and_high _ _ _ 0xB#4

theorem crcCtrlNop : Statement .crcCtrlNop := ⟨⟨"CRC_CTRL_NOP", 0xC00#12, 0xF01#12⟩, by decide, rfl, by decide⟩

theorem crcInit : Statement .crcInit := ⟨⟨"CRC_INIT", 0xC01#12, 0xF01#12⟩, by decide, rfl, by decide⟩

theorem crcFeed (imm8 : Byte) : Statement (.crcFeed imm8) := by
  refine ⟨⟨"CRC_FEED", 0xD00#12, 0xF00#12⟩, by decide, rfl, beq_iff_eq.mpr ?_⟩
  exact accessWord_and_high _ _ _ 0xF#4

theorem wrCrcAcc (imm8 : Byte) : Statement (.wrCrcAcc imm8) := by
  refine ⟨⟨"WR_CRC_ACC", 0xE00#12, 0xF00#12⟩, by decide, rfl, beq_iff_eq.mpr ?_⟩
  exact accessWord_and_high _ _ _ 0xF#4

theorem rdCtrl : Statement .rdCtrl := ⟨⟨"RD_CTRL", 0x000#12, 0xF00#12⟩, by decide, rfl, by decide⟩

theorem rdStatus : Statement .rdStatus := ⟨⟨"RD_STATUS", 0x100#12, 0xF00#12⟩, by decide, rfl, by decide⟩

theorem rdData : Statement .rdData := ⟨⟨"RD_DATA", 0x200#12, 0xF00#12⟩, by decide, rfl, by decide⟩

theorem rdRsv (o : BitVec 1) : Statement (.rdRsv o) := ⟨⟨"RD_RSV", 0x300#12, 0xB00#12⟩, by decide, rfl, by revert o; decide⟩

theorem rdCrcCtrl : Statement .rdCrcCtrl := ⟨⟨"RD_CRC_CTRL", 0x400#12, 0xF00#12⟩, by decide, rfl, by decide⟩

theorem rdCrcData : Statement .rdCrcData := ⟨⟨"RD_CRC_DATA", 0x500#12, 0xF00#12⟩, by decide, rfl, by decide⟩

theorem rdCrcAcc : Statement .rdCrcAcc := ⟨⟨"RD_CRC_ACC", 0x600#12, 0xF00#12⟩, by decide, rfl, by decide⟩

end Sys2Proof.Laws.Encodes
end

