-- ==== Sys2Proof/Laws/Runs.lean ====
section
/-! SUPPORT. Runs: one step at a time, and one run after another. -/

namespace Sys2Proof.Machine

@[simp] theorem runSteps_zero (s : State) : runSteps 0 s = .next s := rfl

theorem runSteps_succ {n : Nat} {s t : State} (h : step s = .next t) : runSteps (n + 1) s = runSteps n t := by
  simp [runSteps, h]

/-- A run of `n + k` steps is a run of `n` steps and then one of `k`. -/
theorem runSteps_add {n k : Nat} {s t : State} (h : runSteps n s = .next t) :
    runSteps (n + k) s = runSteps k t := by
  induction n generalizing s with
  | zero => cases h; rw [Nat.zero_add]
  | succ n ih =>
    rw [Nat.succ_add]
    simp only [runSteps] at h ⊢
    split at h
    · exact ih h
    · cases h
    · cases h

end Sys2Proof.Machine
end

