-- ==== Sys2Proof/Tests/Slice0.lean ====
section
/-! SUPPORT. The model's own tests: well-formedness, decoding of words written out from 30_encoding.md R73,
steps from the tables of 95_test_vectors.md, and for each statement with hypotheses a state that meets
them. -/

namespace Sys2Proof.Tests

open Machine

/-! Well-formedness: a term each check refuses. -/

theorem test_wellFormed_refuses_ignored_status_bits : (Instr.wrStatus 0xCF#8).wellFormed = false := by decide
theorem test_wellFormed_accepts_clearErrors : clearErrors.wellFormed = true := by decide
theorem test_bus_refuses_two_bytes : (BusAccess.mk true 0 2 0x01#8).wellFormed = false := by decide
theorem test_bus_refuses_read_with_byte : (BusAccess.mk false 0 1 0x01#8).wellFormed = false := by decide
theorem test_assemble_clears_ignored_bits : assemble (.wrStatus 0xFF#8) = 0x930#12 ∧ encode (.wrStatus 0xCF#8) = 0x9CF#12 := by decide
theorem test_number_wider_than_word : decodeTableWord 16 0x1801 = none := by decide

/-! Decoding: bit 11, bits 10:8, bits 7:0, as R73's patterns have them; ignored bits 1 in many. -/

theorem test_decode_nop : decode 0b100011111000#12 = .nop := by decide
theorem test_decode_start : decode 0b100011111001#12 = .start := by decide
theorem test_decode_stop : decode 0b100000000010#12 = .stop := by decide
theorem test_decode_write : decode 0b100010101011#12 = .write := by decide
theorem test_decode_readAck : decode 0b100001010100#12 = .readAck := by decide
theorem test_decode_readNack : decode 0b100000000101#12 = .readNack := by decide
theorem test_decode_cmdRsv : decode 0b100000000110#12 = .cmdRsv 0#1 ∧ decode 0b100011111111#12 = .cmdRsv 1#1 := by decide
theorem test_decode_wrStatus : decode 0b100100110000#12 = .wrStatus 0b00110000#8 := by decide
theorem test_decode_wrData : decode 0b101001111000#12 = .wrData 0b01111000#8 := by decide
theorem test_decode_wrRsv : decode 0b101111111111#12 = .wrRsv 0#1 0xFF#8 ∧ decode 0b111100000001#12 = .wrRsv 1#1 0x01#8 := by decide
theorem test_decode_crcCtrlNop : decode 0b110011111110#12 = .crcCtrlNop := by decide
theorem test_decode_crcInit : decode 0b110011111111#12 = .crcInit := by decide
theorem test_decode_crcFeed : decode 0b110101101000#12 = .crcFeed 0x68#8 := by decide
theorem test_decode_wrCrcAcc : decode 0b111001010101#12 = .wrCrcAcc 0x55#8 := by decide
theorem test_decode_rdCtrl : decode 0b000011111111#12 = .rdCtrl := by decide
theorem test_decode_rdStatus : decode 0b000100000000#12 = .rdStatus := by decide
theorem test_decode_rdData : decode 0b001000000000#12 = .rdData := by decide
theorem test_decode_rdRsv : decode 0b001100000000#12 = .rdRsv 0#1 ∧ decode 0b011110101011#12 = .rdRsv 1#1 := by decide
theorem test_decode_rdCrcCtrl : decode 0b010000000000#12 = .rdCrcCtrl := by decide
theorem test_decode_rdCrcData : decode 0b010100000000#12 = .rdCrcData := by decide
theorem test_decode_rdCrcAcc : decode 0b011000000000#12 = .rdCrcAcc := by decide

/-! The start states of 95_test_vectors.md, section "Command acceptance and completion". -/

/-- I: IDLE after a completed STOP (STATUS 0x01, CTRL 2). -/
def idle : State := { State.reset with cmd := 2#3, done := true }

/-- Hd: HELD after a completed START (STATUS 0x05, CTRL 1). -/
def held : State := { State.reset with cmd := 1#3, done := true, opened := true, hist := [.reset, .start] }

/-- B: a WRITE of DATA = 0x55 in flight (STATUS 0x06, CTRL 3). -/
def busy : State :=
  { held with cmd := 3#3, done := false, busy := true, phase := .write, data := 0x55#8 }

def nextOf : Host.Outcome State Fault Refusal → Option State
  | .next t => some t
  | .fault _ => none
  | .refused _ => none

/-- STATUS and CTRL right after an access. -/
def seen (i : Instr) (s : State) : Option (Byte × Byte) :=
  (nextOf (exec i s)).map fun t => (statusByte t, ctrlByte t)

/-- STATUS and the events gained when the accepted phase completes with answers `d`. -/
def completed (i : Instr) (d : Draw) (s : State) : Option (Byte × List BusEvent) :=
  (nextOf (exec i s)).map fun t => (statusByte (complete d t), (complete d t).hist.drop s.hist.length)

theorem test_start_states : statusByte idle = 0x01#8 ∧ statusByte held = 0x05#8 ∧ statusByte busy = 0x06#8 ∧ statusByte State.reset = 0x00#8 := by decide

/-! Bus phase commands: 95_test_vectors.md, the same section. -/

theorem test_nop : seen .nop State.reset = some (0x00#8, 0#8) ∧ seen .nop held = some (0x05#8, 1#8) := by decide
theorem test_nop_busy : seen .nop busy = some (0x26#8, 3#8) := by decide
theorem test_start_accepted : seen .start State.reset = some (0x02#8, 1#8) ∧ seen .start held = some (0x06#8, 1#8) := by decide
theorem test_start_completes : completed .start ⟨.ack, 0#8⟩ idle = some (0x05#8, [.start]) ∧
    completed .start ⟨.ack, 0#8⟩ held = some (0x05#8, [.repStart]) := by decide
theorem test_stop : seen .stop State.reset = some (0x11#8, 0#8) ∧ seen .stop held = some (0x06#8, 2#8) := by decide
theorem test_stop_completes : completed .stop ⟨.ack, 0#8⟩ { held with nack := true } = some (0x09#8, [.stop]) := by decide
theorem test_write : seen .write idle = some (0x11#8, 2#8) ∧ seen .write held = some (0x06#8, 3#8) := by decide
theorem test_write_completes : completed .write ⟨.nack, 0#8⟩ { held with data := 0x78#8 } = some (0x0D#8, [.write 0x78#8 .nack]) := by decide
theorem test_readAck : seen .readAck idle = some (0x11#8, 2#8) ∧ seen .readAck held = some (0x06#8, 4#8) := by decide
theorem test_readAck_completes : completed .readAck ⟨.nack, 0x5A#8⟩ { held with nack := true } = some (0x0D#8, [.read 0x5A#8 .ack]) := by decide
theorem test_readNack : seen .readNack idle = some (0x11#8, 2#8) ∧ seen .readNack held = some (0x06#8, 5#8) := by decide
theorem test_readNack_completes : completed .readNack ⟨.ack, 0x8D#8⟩ held = some (0x05#8, [.read 0x8D#8 .nack]) := by decide
theorem test_cmdRsv : seen (.cmdRsv 0#1) State.reset = some (0x11#8, 0#8) ∧ seen (.cmdRsv 1#1) held = some (0x15#8, 1#8) := by decide
theorem test_cmdRsv_busy : seen (.cmdRsv 1#1) busy = some (0x26#8, 3#8) := by decide

/-! Register accesses: 95_test_vectors.md, section "Register accesses". -/

/-- STATUS 0x31. -/
def flagged : State := { State.reset with done := true, err := true, wcol := true }

theorem test_wrStatus : seen (.wrStatus 0x10#8) flagged = some (0x21#8, 0#8) ∧ seen (.wrStatus 0xCF#8) flagged = some (0x31#8, 0#8) := by decide
theorem test_wrStatus_busy : seen (.wrStatus 0x20#8) { busy with wcol := true } = some (0x06#8, 3#8) := by decide
theorem test_wrData : (nextOf (exec (.wrData 0x78#8) idle)).map State.data = some 0x78#8 := by decide
theorem test_wrData_busy : nextOf (exec (.wrData 0x99#8) busy) = some { busy with wcol := true } := by decide
theorem test_wrRsv_busy : nextOf (exec (.wrRsv 1#1 0xFF#8) busy) = some busy := by decide
theorem test_rdCtrl : (nextOf (exec .rdCtrl busy)).map State.reads = some [0x03#8] := by decide
theorem test_rdStatus : (nextOf (exec .rdStatus { held with nack := true })).map State.reads = some [0x0D#8] := by decide
theorem test_rdData : (nextOf (exec .rdData { held with data := 0x62#8 })).map State.reads = some [0x62#8] := by decide
theorem test_rdRsv : (nextOf (exec (.rdRsv 1#1) busy)).map State.reads = some [0x00#8] := by decide

/-! The CRC unit: 95_test_vectors.md, sections "CRC-8 function" and "CRC unit registers". -/

theorem test_crc_short : crcCompute [] = 0x00#8 ∧ crcCompute [0x01#8] = 0x31#8 ∧ crcCompute [0x31#8] = 0xF4#8 := by decide
theorem test_crc_one_byte : crcCompute [0x80#8] = 0x7A#8 ∧ crcCompute [0xF3#8] = 0xD1#8 ∧ crcCompute [0xF5#8] = 0x77#8 := by decide
theorem test_crc_readings : crcCompute [0x68#8, 0x3A#8] = 0x7C#8 ∧ crcCompute [0x62#8, 0x34#8] = 0x8D#8 := by decide +kernel
theorem test_crc_readings_more : crcCompute [0x4E#8, 0x85#8] = 0x6B#8 ∧ crcCompute [0xFF#8, 0xFF#8] = 0x2D#8 := by decide +kernel
theorem test_crcInit : nextOf (exec .crcInit { busy with crcAcc := 0x7C#8 }) = some busy := by decide
theorem test_crcFeed : (nextOf (exec (.crcFeed 0x3A#8) { idle with crcAcc := 0x02#8 })).map State.crcAcc = some 0x7C#8 := by decide
theorem test_wrCrcAcc : (nextOf (exec (.wrCrcAcc 0x55#8) { idle with crcAcc := 0x02#8 })).map State.crcAcc = some 0x02#8 := by decide
theorem test_crcCtrlNop : (nextOf (exec .crcCtrlNop { idle with crcAcc := 0x7C#8 })).map State.crcAcc = some 0x7C#8 := by decide
theorem test_rdCrcAcc : (nextOf (exec .rdCrcAcc { idle with crcAcc := 0x02#8 })).map State.reads = some [0x02#8] := by decide
theorem test_rdCrcCtrl : (nextOf (exec .rdCrcCtrl { idle with crcAcc := 0x02#8 })).map State.reads = some [0x00#8] := by decide
theorem test_rdCrcData : (nextOf (exec .rdCrcData { idle with crcAcc := 0x02#8 })).map State.reads = some [0x00#8] := by decide

/-! Reset and turns: 95_test_vectors.md, section "Reset"; 20_memory.md R57. -/

theorem test_reset_in_flight : nextOf (step { busy with crcAcc := 0x7C#8, agenda := [⟨true, .engine ⟨.ack, 0#8⟩⟩] }) =
    some { State.reset with hist := [.reset, .start, .reset], steps := 1 } := by decide
theorem test_fetched_start : (nextOf (step (State.reset.withFetchWord 16 0x801))).map State.phase = some .start := by decide
theorem test_engine_turn_without_phase : nextOf (step { idle with agenda := [engineTurn ⟨.nack, 7#8⟩] }) = some { idle with steps := 1 } := by decide

/-! Worked examples of the host's arithmetic: 95_test_vectors.md V3, V8; addresses of section L3. -/

theorem test_temperature : temperature 0x6234#16 = 21 ∧ temperature 0x0000#16 = -46 ∧ temperature 0x4E85#16 = 7 ∧ temperature 0xFFFF#16 = 129 := by decide
theorem test_reading : keep temperature 5 (verifyReading ⟨0x62#8, 0x34#8, 0x8D#8⟩) = 21 ∧
    keep temperature 5 (verifyReading ⟨0x62#8, 0x34#8, 0x8C#8⟩) = 5 := by decide +kernel
theorem test_address_bytes : addrW 0x3C#7 = 0x78#8 ∧ addrW 0x40#7 = 0x80#8 ∧ addrR 0x40#7 = 0x81#8 := by decide
theorem test_clear_count : (clearDisplay fun _ => (0, 0, 0)).length = 1048 := by simp [clearDisplay, setCursor]

/-- The two glyphs of 95_test_vectors.md V4. -/
def fontA1 (c : Char) : Glyph := if c = 'A' then #v[0x7E, 0x11, 0x11, 0x11, 0x7E] else #v[0x00, 0x42, 0x7F, 0x40, 0x00]

theorem test_printString : printString fontA1 ['A', '1'] =
    [0x7E, 0x11, 0x11, 0x11, 0x7E, 0x00, 0x00, 0x42, 0x7F, 0x40, 0x00, 0x00].map displayData := rfl
theorem test_printChar_space : printChar fontA1 ' ' = List.replicate 6 (displayData 0x00#8) := rfl

/-! 95_test_vectors.md P3 and P3b: a sensor read and its check, each poll reading once before the completion.
P3's example address stands in the written byte. -/

def readAndCheck : Program (Option (BitVec 16)) :=
  (Program.sequence [.start, .writeByte 0x81#8, .readByteAck, .readByteAck, .readByteNack, .stop]).bind fun received =>
    match Reading.ofReceived received with
    | some r => checkReading r
    | none => .done none

/-- Host instants: `m` accesses and an early STATUS read, the completion, the last read and `n` accesses. -/
def phaseInstants (m n : Nat) (d : Draw) : List Instant :=
  List.replicate (m + 1) .host ++ .engine d :: List.replicate (n + 1) .host

def readInstants (c : Byte) : List Instant :=
  phaseInstants 1 0 ⟨.ack, 0⟩ ++ phaseInstants 2 0 ⟨.ack, 0⟩ ++ phaseInstants 1 1 ⟨.ack, 0x62#8⟩ ++
    phaseInstants 1 1 ⟨.ack, 0x34#8⟩ ++ phaseInstants 1 1 ⟨.ack, c⟩ ++ phaseInstants 1 0 ⟨.ack, 0⟩ ++
    List.replicate 4 .host

/-- The history that P3 gains, with the checksum byte received. -/
def readEvents (c : Byte) : List BusEvent :=
  [.start, .write 0x81#8 .ack, .read 0x62#8 .ack, .read 0x34#8 .ack, .read c .nack, .stop]

theorem test_P3 : readAndCheck.endObservation (readInstants 0x8D#8) idle =
    some (some 0x6234#16, ⟨0x02#8, 0x01#8, 0x8D#8, .none, 0x8D#8, .reset :: readEvents 0x8D#8⟩) := by decide +kernel
theorem test_P3b : readAndCheck.endObservation (readInstants 0x8C#8) idle =
    some (none, ⟨0x02#8, 0x01#8, 0x8C#8, .none, 0x8D#8, .reset :: readEvents 0x8C#8⟩) := by decide +kernel
theorem test_run_not_ended : (Program.write .start (.done ())).endObservation [.host] idle = none := by decide +kernel

/-- After the last access a wait is left, and the run has ended; a reset after the end is not seen (R66). -/
theorem test_run_ends_at_last_access :
    (Program.write (.crcFeed 0x01#8) (.wait (.done ()))).endObservation [.host, .reset, .host] idle =
      some ((), ⟨0x02#8, 0x01#8, 0x00#8, .none, 0x31#8, [.reset]⟩) := by decide +kernel

/-! Witnesses: a state and operands that meet all hypotheses of each statement together. -/

def at_ (t : Turn) (s : State) : State := { s with agenda := [t] }

theorem test_witness_StepRunsDecodedAccess : nextTurn (at_ (accessTurn 0xFFF#12) held) = accessTurn 0xFFF#12 := rfl
theorem test_witness_FetchedWordRunsNext : decodeTableWord 16 0xFFF = some (.wrRsv 1#1 0xFF#8) ∧ decodeTableWord 12 0x000 = some .rdCtrl := by decide
theorem test_witness_EmptyAgendaAsksEnvironment : State.reset.agenda = [] := rfl
theorem test_witness_ResetTakesPrecedence : (nextTurn (at_ ⟨true, .access 0x802#12⟩ busy)).reset = true := rfl

/-- A two-byte read at the first address of the window, a four-byte one at the last, a three-byte one from
the address below the window (where there is one), and one of width 0. -/
theorem test_witness_NonByteAccessRefused :
    (∀ addr width, nextTurn (at_ ⟨false, .bus ⟨false, addr, width, 0⟩⟩ held) = ⟨false, .bus ⟨false, addr, width, 0⟩⟩) ∧
    (2 ≠ 1 ∧ Config.base < Config.base + 8 ∧ Config.base < Config.base + max 2 1) ∧
    (4 ≠ 1 ∧ Config.base + 7 < Config.base + 8 ∧ Config.base < Config.base + 7 + max 4 1) ∧
    (3 ≠ 1 ∧ Config.base - 1 < Config.base + 8 ∧ Config.base < Config.base - 1 + max 3 1) ∧
    (0 ≠ 1 ∧ Config.base < Config.base + 8 ∧ Config.base < Config.base + max 0 1) :=
  ⟨fun _ _ => rfl, by omega, by omega, by omega, by omega⟩

/-- The address after the window. -/
theorem test_witness_AccessOutsideWindowIsNotOurs :
    nextTurn (at_ ⟨false, .bus ⟨true, Config.base + 8, 1, 0⟩⟩ held) = ⟨false, .bus ⟨true, Config.base + 8, 1, 0⟩⟩ ∧
    (Config.base + 8 + max 1 1 ≤ Config.base ∨ Config.base + 8 ≤ Config.base + 8) := ⟨rfl, by omega⟩

/-- Every command rule's state hypotheses: not busy with and without a transaction, and busy; and its
words at both ends of the row. -/
theorem test_witness_commands : idle.busy = false ∧ idle.opened = false ∧ held.busy = false ∧ held.opened = true ∧ busy.busy = true := by decide
theorem test_witness_command_words :
    0x800#12 &&& 0xF07#12 = 0x800#12 ∧ 0x8F8#12 &&& 0xF07#12 = 0x800#12 ∧ 0x8F9#12 &&& 0xF07#12 = 0x801#12 ∧
    0x8FA#12 &&& 0xF07#12 = 0x802#12 ∧ 0x8FB#12 &&& 0xF07#12 = 0x803#12 ∧ 0x8FC#12 &&& 0xF07#12 = 0x804#12 ∧
    0x8FD#12 &&& 0xF07#12 = 0x805#12 ∧ 0x806#12 &&& 0xF06#12 = 0x806#12 ∧ 0x8FF#12 &&& 0xF06#12 = 0x806#12 := by decide
theorem test_witness_register_words :
    0x0FF#12 &&& 0xF00#12 = 0x000#12 ∧ 0x1FF#12 &&& 0xF00#12 = 0x100#12 ∧ 0x2FF#12 &&& 0xF00#12 = 0x200#12 ∧
    0x300#12 &&& 0xB00#12 = 0x300#12 ∧ 0x7FF#12 &&& 0xB00#12 = 0x300#12 ∧ 0x4FF#12 &&& 0xF00#12 = 0x400#12 ∧
    0x5FF#12 &&& 0xF00#12 = 0x500#12 ∧ 0x6FF#12 &&& 0xF00#12 = 0x600#12 ∧ 0xB00#12 &&& 0xB00#12 = 0xB00#12 ∧
    0xFFF#12 &&& 0xB00#12 = 0xB00#12 ∧ 0xCFE#12 &&& 0xF01#12 = 0xC00#12 ∧ 0xCFF#12 &&& 0xF01#12 = 0xC01#12 := by decide

/-- A poll of three reads after a NOP, and one of none. -/
theorem test_witness_PollAfterNopShowsOldDone :
    { idle with agenda := accesses (.nop :: poll 3) ++ [] }.agenda = accesses (.nop :: poll 3) ++ [] ∧
    { State.reset with agenda := accesses (.nop :: poll 0) ++ [idleTurn] }.agenda = accesses (.nop :: poll 0) ++ [idleTurn] :=
  ⟨rfl, rfl⟩

/-- An engine turn with each phase in flight, with none, and with a NACK answer to a WRITE. -/
theorem test_witness_completions (p : Phase) (d : Draw) :
    nextTurn (at_ (engineTurn d) { busy with phase := p }) = engineTurn d ∧ (at_ (engineTurn d) { busy with phase := p }).phase = p :=
  ⟨rfl, rfl⟩
theorem test_witness_NackLeavesTransactionOpen :
    nextTurn (at_ (engineTurn ⟨.nack, 0⟩) busy) = engineTurn ⟨.nack, 0⟩ ∧ busy.phase = .write ∧ busy.opened = true ∧
    (Draw.mk .nack 0).ack = .nack := ⟨rfl, rfl, rfl, rfl⟩
theorem test_witness_BytesDoNotSteerTheEngine :
    held.control = { held with data := 0xFF#8 }.control ∧
    exec .write held = .next (accept 3#3 held) ∧
    exec .write { held with data := 0xFF#8 } = .next (accept 3#3 { held with data := 0xFF#8 }) := ⟨rfl, rfl, rfl⟩

/-- The data and read rules' hypotheses: not busy and busy. -/
theorem test_witness_WrData_RdData : idle.busy = false ∧ busy.busy = true := by decide

theorem test_witness_CrcComputeRoutine :
    { busy with agenda := accesses (crcComputeAccesses [0x68#8, 0x3A#8]) ++ [idleTurn] }.agenda =
      accesses (crcComputeAccesses [0x68#8, 0x3A#8]) ++ [idleTurn] ∧
    { idle with agenda := accesses (crcComputeAccesses []) ++ [] }.agenda = accesses (crcComputeAccesses []) ++ [] := ⟨rfl, rfl⟩
theorem test_witness_FeedsWithoutInitContinue :
    { idle with agenda := accesses ([0x68#8].map Instr.crcFeed) ++ [] }.agenda = accesses ([0x68#8].map Instr.crcFeed) ++ [] := rfl
theorem test_witness_CrcUnitIsIndependent :
    (exec .start idle = .next (accept 1#3 idle) ∧ Instr.start ≠ .crcInit ∧ ∀ b, Instr.start ≠ .crcFeed b) ∧
    (exec .crcInit idle = .next idle ∨ exec (.crcFeed 0) idle = .next idle) := ⟨⟨rfl, by decide, by simp⟩, .inl rfl⟩
theorem test_witness_ReadsHaveNoSideEffect :
    isRead .rdData = true ∧ (Instr.rdData = .rdData → idle.busy = false) ∧ exec .rdData idle = .next (answer 0 idle) ∧
    exec .rdData (answer 0 idle) = .next (answer 0 (answer 0 idle)) := ⟨rfl, fun _ => rfl, rfl, rfl⟩
theorem test_witness_HistoryOnlyGrows :
    step (at_ idleTurn busy) = .next { busy with steps := 1 } ∧ exec .nop idle = .next idle := ⟨rfl, rfl⟩

/-- A rejection, a kept flag and a cleared one. -/
theorem test_witness_ErrIsSticky :
    (exec .stop idle = .next (reject idle) ∧ idle.err = false) ∧
    (exec (.wrStatus 0x10#8) flagged = .next { flagged with err := false } ∧ flagged.err = true) := ⟨⟨rfl, rfl⟩, rfl, rfl⟩
theorem test_witness_WcolIsSticky :
    (exec .nop busy = .next (collide busy) ∧ busy.wcol = false) ∧
    (exec (.wrStatus 0x20#8) flagged = .next { flagged with wcol := false } ∧ flagged.wcol = true) ∧
    busy.busy = true ∧ Instr.nop ∈ [Instr.nop, .start, .stop, .write, .readAck, .readNack] := ⟨⟨rfl, rfl⟩, ⟨rfl, rfl⟩, rfl, by decide⟩

/-- An acceptance that clears DONE, a rejection that sets it, and a phase in flight. -/
theorem test_witness_DoneFollows :
    (exec .start idle = .next (accept 1#3 idle) ∧ idle.done = true ∧ (accept 1#3 idle).done = false) ∧
    (exec .stop State.reset = .next (reject State.reset) ∧ State.reset.done = false ∧ (reject State.reset).done = true) ∧
    busy.phase ≠ .none := ⟨⟨rfl, rfl, rfl⟩, ⟨rfl, rfl, rfl⟩, by decide⟩

theorem held_consistent : held.Consistent := ⟨by decide, by decide, by decide, by decide⟩
theorem busy_consistent : busy.Consistent := ⟨by decide, by decide, by decide, by decide⟩

/-- A phase in flight, and a CTRL write that starts none. -/
theorem test_witness_RdCtrl_RdStatus :
    busy.Consistent ∧ busy.CmdNamesPhase ∧ busy.phase ≠ .none ∧
    exec (decode (accessWord true 0x0#3 0xFF#8)) held = .next (reject held) ∧ (reject held).busy = held.busy :=
  ⟨busy_consistent, fun _ => rfl, by decide, rfl, rfl⟩
theorem test_witness_RdCrcAccReturnsAccumulator : exec .crcInit busy = .next (setCrcAcc crcSeed busy) := rfl

theorem test_witness_ModeTransitions :
    held.Consistent ∧ exec .stop held = .next (accept 2#3 held) ∧ busy.Consistent ∧ busy.phase ≠ .none :=
  ⟨held_consistent, rfl, busy_consistent, by decide⟩

/-- A step that moves the mode by each of the three ways; the host's by its access word and on its bus. -/
theorem test_witness_ModeTransitions_step :
    (accessTurn 0x801#12).hostWord = some 0x801#12 ∧ idleTurn.hostWord = none ∧
    (Turn.hostWord ⟨false, .bus ⟨true, Config.base, 1, 0x01#8⟩⟩) = some 0x801#12 ∧
    (step (at_ (accessTurn 0x801#12) idle) = .next { accept 1#3 idle with steps := 1 } ∧ (accept 1#3 idle).mode ≠ idle.mode) ∧
    (step (at_ (engineTurn ⟨.ack, 0⟩) busy) = .next { complete ⟨.ack, 0⟩ busy with steps := 1 } ∧
      (complete ⟨.ack, 0⟩ busy).mode ≠ busy.mode) ∧
    step (at_ ⟨true, .idle⟩ held) = .next { resetBlock held with steps := 1 } ∧ (resetBlock held).mode ≠ held.mode :=
  ⟨rfl, rfl, by simp [Turn.hostWord, BusAccess.touchesWindow, BusAccess.word, windowSize]; decide,
    ⟨rfl, by decide⟩, ⟨rfl, by decide⟩, rfl, by decide⟩
theorem test_witness_StepKeepsEngineConsistency :
    (at_ idleTurn busy).Consistent ∧ (at_ idleTurn busy).CmdNamesPhase ∧ step (at_ idleTurn busy) = .next { busy with steps := 1 } :=
  ⟨⟨by decide, by decide, by decide, by decide⟩, fun _ => rfl, rfl⟩
theorem test_witness_StepKeepsHistoryAgreement :
    (at_ (engineTurn ⟨.nack, 0⟩) busy).Consistent ∧ (at_ (engineTurn ⟨.nack, 0⟩) busy).HistoryAgrees ∧
    step (at_ (engineTurn ⟨.nack, 0⟩) busy) =
      .next { busy with phase := .none, busy := false, done := true, nack := true, hist := [.reset, .start, .write 0x55#8 .nack], steps := 1 } :=
  ⟨⟨by decide, by decide, by decide, by decide⟩, ⟨by decide, by decide⟩, rfl⟩
/-- A run of one step after a reset, which accepts a START. -/
theorem test_witness_ReachableStatesAreConsistent :
    runSteps 1 (resetBlock (at_ (accessTurn 0x801#12) busy)) =
      .next { State.reset with cmd := 1#3, busy := true, phase := .start, hist := [.reset, .start, .reset], steps := 1 } := rfl

theorem test_witness_PhaseInFlightIsUndisturbed :
    (at_ (accessTurn 0xA99#12) busy).busy = true ∧ (nextTurn (at_ (accessTurn 0xA99#12) busy)).endsPhase = false ∧
    step (at_ (accessTurn 0xA99#12) busy) = .next { busy with wcol := true, steps := 1 } := ⟨rfl, rfl, rfl⟩
theorem test_witness_NoTimeout :
    { busy with agenda := [accessTurn 0x100#12, idleTurn] }.busy = true ∧ { busy with agenda := [accessTurn 0x100#12, idleTurn] }.done = false ∧
    ({ busy with agenda := [accessTurn 0x100#12, idleTurn] }.agenda.all Turn.isHostOrIdle) = true := by decide

/-- A run that a two-byte access ends after the engine's turn is responsive whatever the environment does. -/
theorem test_witness_ResponsiveBusEndsThePhase :
    { busy with agenda := [engineTurn ⟨.ack, 0⟩, ⟨false, .bus ⟨false, Config.base, 2, 0⟩⟩] }.phase ≠ .none ∧
    BusResponsive { busy with agenda := [engineTurn ⟨.ack, 0⟩, ⟨false, .bus ⟨false, Config.base, 2, 0⟩⟩] } := by
  refine ⟨by decide, fun n t h hp => ?_⟩
  match n with
  | 0 => cases h; exact ⟨0, _, rfl, .inl rfl⟩
  | 1 => cases h; exact absurd rfl hp
  | n + 2 =>
    have ht : (BusAccess.mk false Config.base 2 0).touchesWindow = true :=
      Bool.and_eq_true_iff.2 ⟨decide_eq_true (by show Config.base < Config.base + 8; omega), decide_eq_true (by show Config.base < Config.base + 2; omega)⟩
    have h2 (u : State) : takeTurn ⟨false, .bus ⟨false, Config.base, 2, 0⟩⟩ u = .refused (.accessWidth 2) := by
      show takeBusAccess _ u = _
      rw [takeBusAccess, ht]; rfl
    have h3 : ∃ u, runSteps (n + 2) { busy with agenda := [engineTurn ⟨.ack, 0⟩, ⟨false, .bus ⟨false, Config.base, 2, 0⟩⟩] } =
        match takeTurn ⟨false, .bus ⟨false, Config.base, 2, 0⟩⟩ u with
        | .next t => runSteps n t
        | .fault r => .fault r
        | .refused r => .refused r := ⟨_, rfl⟩
    obtain ⟨u, h3⟩ := h3
    rw [h3, h2] at h
    cases h

theorem test_witness_WriteSendsDataHeldAtAcceptance :
    held.busy = false ∧ held.opened = true ∧ [accessTurn 0xA99#12].all Turn.isHostOrIdle = true ∧
    { held with agenda := [accessTurn 0x803#12, accessTurn 0xA99#12, engineTurn ⟨.ack, 0⟩] }.agenda =
      accessTurn 0x803#12 :: ([accessTurn 0xA99#12] ++ engineTurn ⟨.ack, 0⟩ :: []) := ⟨rfl, rfl, rfl, rfl⟩
theorem test_witness_PollEndsAtFirstReadAfterCompletion :
    busy.phase ≠ .none ∧ busy.done = false ∧
    { busy with agenda := accesses (poll 2) ++ engineTurn ⟨.ack, 0⟩ :: (accesses (poll 1) ++ []) }.agenda =
      accesses (poll 2) ++ engineTurn ⟨.ack, 0⟩ :: (accesses (poll 1) ++ []) := ⟨by decide, rfl, rfl⟩

/-- Each primitive from HELD, and a start() from IDLE. -/
theorem test_witness_PrimitiveEffects (p : Primitive) :
    let r : PrimitiveRun := ⟨p, 0, ⟨.nack, 0xFF#8⟩⟩
    let s : State := { held with agenda := r.turns ++ [] }
    let r₀ : PrimitiveRun := ⟨.start, 1, ⟨.ack, 0#8⟩⟩
    let s₀ : State := { idle with agenda := r₀.turns ++ [] }
    (s.phase = .none ∧ s.busy = false ∧ (r.prim ≠ .start → s.opened = true) ∧ s.agenda = r.turns ++ []) ∧
    s₀.phase = .none ∧ s₀.busy = false ∧ (r₀.prim ≠ .start → s₀.opened = true) ∧ s₀.agenda = r₀.turns ++ [] :=
  ⟨⟨rfl, rfl, fun _ => rfl, rfl⟩, rfl, rfl, fun h => absurd rfl h, rfl⟩
theorem test_witness_PrimitivesRejectedFromIdle :
    Primitive.readByteAck ≠ .start ∧ idle.phase = .none ∧ idle.busy = false ∧ idle.opened = false ∧
    { idle with agenda := accesses (Primitive.readByteAck.expand 1) ++ [] }.agenda = accesses (Primitive.readByteAck.expand 1) ++ [] :=
  ⟨by decide, rfl, rfl, rfl, rfl⟩

/-- The runs of a list of primitives, each completing after `n` reads with answers `d`. -/
def runsOf (ps : List Primitive) (n : Nat) (d : Draw) : List PrimitiveRun := ps.map fun p => ⟨p, n, d⟩

theorem test_witness_TransactionHistory :
    let rs := runsOf [.start, .writeByte 0x81#8, .readByteNack, .stop] 1 ⟨.nack, 0x62#8⟩
    let s : State := { idle with agenda := sequenceTurns rs ++ [] }
    isTransaction (rs.map PrimitiveRun.prim) = true ∧ s.phase = .none ∧ s.busy = false ∧ s.opened = false ∧
    s.agenda = sequenceTurns rs ++ [] := ⟨rfl, rfl, rfl, rfl, rfl⟩
theorem test_witness_SampleHistory :
    let d : Draw := ⟨.ack, 0x62#8⟩
    let r (ps : List Primitive) := runsOf ps 0 d
    let ts := roundTurns (r (sensorTrigger 0xF3#8)) (r sensorRead) ++ (roundTurns (r (sensorTrigger 0xF5#8)) (r sensorRead) ++ [])
    let s : State := { idle with agenda := ts }
    (r (sensorTrigger 0xF3#8)).map PrimitiveRun.prim = sensorTrigger 0xF3#8 ∧ (r sensorRead).map PrimitiveRun.prim = sensorRead ∧
    (r (sensorTrigger 0xF5#8)).map PrimitiveRun.prim = sensorTrigger 0xF5#8 ∧ s.phase = .none ∧ s.busy = false ∧ s.opened = false ∧
    s.agenda = roundTurns (r (sensorTrigger 0xF3#8)) (r sensorRead) ++ (roundTurns (r (sensorTrigger 0xF5#8)) (r sensorRead) ++ []) :=
  ⟨rfl, rfl, rfl, rfl, rfl, rfl, rfl⟩

theorem finishes_sampleRound {α : Type} {tr : Byte} {f : Option (BitVec 16) → Program α} {s : State}
    (hb : s.busy = false) (ho : s.opened = false)
    (h : ∀ v t, t.busy = false → t.opened = false → (f v).Finishes t) : ((sampleRound tr).bind f).Finishes s := by
  simp only [sampleRound, sensorTrigger, sensorRead, bind_sequence_cons, bind_sequence_nil, bind_assoc, bind_waits]
  refine finishes_primitive ⟨.ack, 0⟩ hb ho fun t h1 => ?_
  refine finishes_primitive ⟨.ack, 0⟩ h1.busy h1.opened fun t h2 => ?_
  refine finishes_primitive ⟨.ack, 0⟩ h2.busy h2.opened fun t h3 => ?_
  refine finishes_primitive ⟨.ack, 0⟩ h3.busy h3.opened fun t h4 => finishes_waits _ fun n => ?_
  refine finishes_primitive (s := { t with steps := n }) ⟨.ack, 0⟩ h4.busy h4.opened fun t h5 => ?_
  refine finishes_primitive ⟨.ack, 0⟩ h5.busy h5.opened fun t h6 => ?_
  refine finishes_primitive ⟨.ack, 0x62⟩ h6.busy h6.opened fun t h7 => ?_
  refine finishes_primitive ⟨.ack, 0x34⟩ h7.busy h7.opened fun t h8 => ?_
  refine finishes_primitive ⟨.ack, 0x8D⟩ h8.busy h8.opened fun t h9 => ?_
  refine finishes_primitive ⟨.ack, 0⟩ h9.busy h9.opened fun t h10 => ?_
  exact finishes_checkReading (r := ⟨0x62, 0x34, 0x8D⟩) fun t hc => h _ _ (hc.busy.trans h10.busy) (hc.opened.trans h10.opened)

/-- From IDLE some run without a reset brings `readSample` to its end. -/
theorem test_witness_ReadSampleEffect : idle.phase = .none ∧ idle.busy = false ∧ idle.opened = false ∧
    ∃ (xs : List Instant) (sample : Sample) (t : State),
      Instant.reset ∉ xs ∧ (readSample ⟨5, 40⟩).run xs idle = .next (.done sample, t) :=
  ⟨rfl, rfl, rfl, finishes_sampleRound rfl rfl fun _ _ hb ho =>
    finishes_sampleRound hb ho fun _ _ _ _ => finishes_done _ _⟩

end Sys2Proof.Tests
end

section
/-! The family 00_scope.md: one equation of `exec` for each row, and the two statements of the family. -/

namespace Sys2Proof.Machine

section ExecEquations

variable (s : State)

/-! The bus phase commands (40_bus_commands.md R101 to R107): each is a CTRL write of its code. -/

@[simp] theorem exec_nop : exec .nop s = .next (ctrlWrite 0b000#3 s) := rfl
@[simp] theorem exec_start : exec .start s = .next (ctrlWrite 0b001#3 s) := rfl
@[simp] theorem exec_stop : exec .stop s = .next (ctrlWrite 0b010#3 s) := rfl
@[simp] theorem exec_write : exec .write s = .next (ctrlWrite 0b011#3 s) := rfl
@[simp] theorem exec_readAck : exec .readAck s = .next (ctrlWrite 0b100#3 s) := rfl
@[simp] theorem exec_readNack : exec .readNack s = .next (ctrlWrite 0b101#3 s) := rfl
@[simp] theorem exec_cmdRsv (c : BitVec 1) : exec (.cmdRsv c) s = .next (ctrlWrite (rsvCode c) s) := rfl

/-! The other writes (41_register_access.md R142, R143, R146; 43_crc.md R192, R193, R195, R198). -/

@[simp] theorem exec_wrStatus (d : Byte) : exec (.wrStatus d) s = .next (clearFlags d s) := rfl
@[simp] theorem exec_wrData (d : Byte) : exec (.wrData d) s = .next (dataWrite d s) := rfl
@[simp] theorem exec_wrRsv (o : BitVec 1) (d : Byte) : exec (.wrRsv o d) s = .next s := rfl
@[simp] theorem exec_crcCtrlNop : exec .crcCtrlNop s = .next s := rfl
@[simp] theorem exec_crcInit : exec .crcInit s = .next (setCrcAcc crcSeed s) := rfl
@[simp] theorem exec_crcFeed (d : Byte) : exec (.crcFeed d) s = .next (setCrcAcc (crc8Step s.crcAcc d) s) := rfl
@[simp] theorem exec_wrCrcAcc (d : Byte) : exec (.wrCrcAcc d) s = .next s := rfl

/-! The reads (41_register_access.md R140, R141, R144, R145; 43_crc.md R194, R196, R197). -/

@[simp] theorem exec_rdCtrl : exec .rdCtrl s = .next (answer (ctrlByte s) s) := rfl
@[simp] theorem exec_rdStatus : exec .rdStatus s = .next (answer (statusByte s) s) := rfl
@[simp] theorem exec_rdData : exec .rdData s = .next (answer (dataByte s) s) := rfl
@[simp] theorem exec_rdRsv (o : BitVec 1) : exec (.rdRsv o) s = .next (answer 0x00#8 s) := rfl
@[simp] theorem exec_rdCrcCtrl : exec .rdCrcCtrl s = .next (answer 0x00#8 s) := rfl
@[simp] theorem exec_rdCrcData : exec .rdCrcData s = .next (answer 0x00#8 s) := rfl
@[simp] theorem exec_rdCrcAcc : exec .rdCrcAcc s = .next (answer s.crcAcc s) := rfl

end ExecEquations

/-- Settles O9: taking a turn off an empty agenda leaves it empty, so only the step count moves. -/
theorem emptyAgendaAsksEnvironment : Obligations.EmptyAgendaAsksEnvironment := by
  intro s h
  calc step s
      = takeTurn (Config.environment s) { s with agenda := [], steps := s.steps + 1 } := step_nil h
    _ = takeTurn (Config.environment s) { s with steps := s.steps + 1 } := by rw [← h]

/-- Settles O40: the equation of each row names the state it answers. -/
theorem everyByteAccessCompletes : Obligations.EveryByteAccessCompletes := by
  intro i s
  cases i with
  | nop => exact ⟨_, exec_nop s⟩
  | start => exact ⟨_, exec_start s⟩
  | stop => exact ⟨_, exec_stop s⟩
  | write => exact ⟨_, exec_write s⟩
  | readAck => exact ⟨_, exec_readAck s⟩
  | readNack => exact ⟨_, exec_readNack s⟩
  | cmdRsv c => exact ⟨_, exec_cmdRsv s c⟩
  | wrStatus d => exact ⟨_, exec_wrStatus s d⟩
  | wrData d => exact ⟨_, exec_wrData s d⟩
  | wrRsv o d => exact ⟨_, exec_wrRsv s o d⟩
  | crcCtrlNop => exact ⟨_, exec_crcCtrlNop s⟩
  | crcInit => exact ⟨_, exec_crcInit s⟩
  | crcFeed d => exact ⟨_, exec_crcFeed s d⟩
  | wrCrcAcc d => exact ⟨_, exec_wrCrcAcc s d⟩
  | rdCtrl => exact ⟨_, exec_rdCtrl s⟩
  | rdStatus => exact ⟨_, exec_rdStatus s⟩
  | rdData => exact ⟨_, exec_rdData s⟩
  | rdRsv o => exact ⟨_, exec_rdRsv s o⟩
  | rdCrcCtrl => exact ⟨_, exec_rdCrcCtrl s⟩
  | rdCrcData => exact ⟨_, exec_rdCrcData s⟩
  | rdCrcAcc => exact ⟨_, exec_rdCrcAcc s⟩

end Sys2Proof.Machine
end

section
/-! The family 10_state.md: what a host access does to the engine's registers, what a completion leaves,
the invariants of R35 and the engine's mode (R37). -/

namespace Sys2Proof.Machine

variable {s t u : State} {i : Instr} {c : Code} {d : Draw}

/-! ### What a host access does to the engine

Of the eight effects of `HostEffect`, only two reach the registers that R35 and R37 speak of. -/

/-- The two states agree on every register that R35 and R37 speak of. -/
structure SameEngine (s t : State) : Prop where
  cmd : t.cmd = s.cmd
  done : t.done = s.done
  busy : t.busy = s.busy
  opened : t.opened = s.opened
  phase : t.phase = s.phase

theorem sameEngine_turnTaken (s : State) : SameEngine s (turnTaken s) := ⟨rfl, rfl, rfl, rfl, rfl⟩

/-- To the engine a host access is a command accepted, a command rejected, or nothing
(40_bus_commands.md R100). -/
theorem HostEffect.on_engine (h : HostEffect s t) :
    SameEngine s t ∨ (s.busy = false ∧ t = reject s) ∨
      (s.busy = false ∧ ∃ c, acceptable c s ∧ t = accept c s) := by
  cases h with
  | nothing => exact .inl ⟨rfl, rfl, rfl, rfl, rfl⟩
  | collides _ => exact .inl ⟨rfl, rfl, rfl, rfl, rfl⟩
  | rejects hb => exact .inr (.inl ⟨hb, rfl⟩)
  | accepts c hb ha => exact .inr (.inr ⟨hb, c, ha, rfl⟩)
  | loads _ _ => exact .inl ⟨rfl, rfl, rfl, rfl, rfl⟩
  | clears _ => exact .inl ⟨rfl, rfl, rfl, rfl, rfl⟩
  | answers _ => exact .inl ⟨rfl, rfl, rfl, rfl, rfl⟩
  | sums _ => exact .inl ⟨rfl, rfl, rfl, rfl, rfl⟩

/-! ### Accepted codes (30_encoding.md R75) -/

theorem kind_needsOpen (c : Code) : (kind c).needsOpen = needsOpen c := by
  revert c; decide

theorem le_five_of_not_reserved (h : reservedCode c = false) : c ≤ 0b101#3 := by
  revert c; decide

/-- START is the one command that needs no open transaction. -/
theorem eq_start_of_acceptable_closed (h : acceptable c s) (ho : s.opened = false) : c = 0b001#3 := by
  obtain ⟨hnop, hrsv, hopen⟩ := h
  have hneeds : needsOpen c = false := by simpa [ho] using hopen
  clear hopen
  revert c
  decide

/-! ### What a completion leaves (40_bus_commands.md R108) -/

theorem complete_of_no_phase (h : s.phase = .none) (d : Draw) : complete d s = s := by
  simp [complete, h]

/-- A completion never looks at, and never moves, the command code, the sticky flags and the checksum. -/
theorem complete_frame (d : Draw) (s : State) :
    (complete d s).cmd = s.cmd ∧ (complete d s).err = s.err ∧ (complete d s).wcol = s.wcol ∧
      (complete d s).crcAcc = s.crcAcc := by
  obtain ⟨_, h⟩ | ⟨_, h⟩ | ⟨_, h⟩ | ⟨_, h⟩ | ⟨_, h⟩ | ⟨_, h⟩ := complete_cases d s <;> rw [h] <;>
    exact ⟨rfl, rfl, rfl, rfl⟩

@[simp] theorem complete_cmd (d : Draw) (s : State) : (complete d s).cmd = s.cmd :=
  let ⟨hcmd, _⟩ := complete_frame d s; hcmd
@[simp] theorem complete_err (d : Draw) (s : State) : (complete d s).err = s.err :=
  let ⟨_, herr, _⟩ := complete_frame d s; herr
@[simp] theorem complete_wcol (d : Draw) (s : State) : (complete d s).wcol = s.wcol :=
  let ⟨_, _, hwcol, _⟩ := complete_frame d s; hwcol
@[simp] theorem complete_crcAcc (d : Draw) (s : State) : (complete d s).crcAcc = s.crcAcc :=
  let ⟨_, _, _, hcrc⟩ := complete_frame d s; hcrc

/-- A phase in flight ends: the common end of R108, and OPEN as the phase's kind says, where the phase
stands in an open transaction if it needs one. -/
theorem complete_ends_phase (d : Draw) (hp : s.phase ≠ .none) :
    (complete d s).phase = .none ∧ (complete d s).busy = false ∧ (complete d s).done = true ∧
      ((s.phase.needsOpen = true → s.opened = true) → (complete d s).opened = !decide (s.phase = .stop)) := by
  obtain ⟨hk, h⟩ | ⟨hk, h⟩ | ⟨hk, h⟩ | ⟨hk, h⟩ | ⟨hk, h⟩ | ⟨hk, h⟩ := complete_cases d s
  · exact absurd hk hp
  all_goals
    rw [h, hk]
    exact ⟨rfl, rfl, rfl, fun ho => by simp [Phase.needsOpen] at ho ⊢ <;> assumption⟩

/-! ### The invariants of R35, and CTRL.CMD as the code of the phase in flight (R140) -/

theorem State.Consistent.congr (hs : s.Consistent) (h : SameEngine s t) : t.Consistent := by
  obtain ⟨hbusy, hdone, hopen, hcmd⟩ := hs
  obtain ⟨ec, ed, eb, eo, ep⟩ := h
  exact ⟨by rwa [eb, ep], by rwa [eb, ed], by rwa [ep, eo], by rwa [ec]⟩

theorem State.CmdNamesPhase.congr (hs : s.CmdNamesPhase) (h : SameEngine s t) : t.CmdNamesPhase := by
  unfold State.CmdNamesPhase at hs ⊢
  rwa [h.phase, h.cmd]

/-- With no phase in flight, only BUSY and CTRL.CMD have something to meet. -/
theorem consistent_of_no_phase (hp : s.phase = .none) (hb : s.busy = false) (hc : s.cmd ≤ 0b101#3) :
    s.Consistent where
  busy_iff := by simp [hp, hb]
  busy_not_done := by simp [hb]
  needs_open := by simp [hp, Phase.needsOpen]
  cmd_le := hc

theorem cmdNamesPhase_of_no_phase (hp : s.phase = .none) : s.CmdNamesPhase := fun h => absurd hp h

theorem consistent_resetBlock (s : State) : (resetBlock s).Consistent :=
  consistent_of_no_phase rfl rfl (by simp)

theorem State.Consistent.phase_none (hs : s.Consistent) (hb : s.busy = false) : s.phase = .none := by
  by_contra hp
  simp [hs.busy_iff.mpr hp] at hb

theorem State.Consistent.reject (hs : s.Consistent) (hb : s.busy = false) : (reject s).Consistent :=
  consistent_of_no_phase (hs.phase_none hb) hb hs.cmd_le

/-- An acceptance makes all four invariants anew: the phase's need of an open transaction is the need
that R100 checks. -/
theorem consistent_accept (ha : acceptable c s) : (accept c s).Consistent := by
  have ⟨_, hrsv, hopen⟩ := ha
  exact {
    busy_iff := by simpa using kind_ne_none_of_acceptable ha
    busy_not_done := fun _ => rfl
    needs_open := fun h => hopen (by rwa [accept_phase, kind_needsOpen] at h)
    cmd_le := le_five_of_not_reserved hrsv }

theorem exec_keeps_engine_invariants (hs : s.Consistent) (hn : s.CmdNamesPhase) (h : exec i s = .next t) :
    t.Consistent ∧ t.CmdNamesPhase := by
  obtain heq | ⟨hb, rfl⟩ | ⟨_, c, ha, rfl⟩ := (exec_effect h).on_engine
  · exact ⟨hs.congr heq, hn.congr heq⟩
  · exact ⟨hs.reject hb, hn⟩
  · exact ⟨consistent_accept ha, fun _ => rfl⟩

theorem complete_keeps_engine_invariants (hs : s.Consistent) (hn : s.CmdNamesPhase) (d : Draw) :
    (complete d s).Consistent ∧ (complete d s).CmdNamesPhase := by
  by_cases hp : s.phase = .none
  · rw [complete_of_no_phase hp]; exact ⟨hs, hn⟩
  · obtain ⟨hp', hb', _, _⟩ := complete_ends_phase d hp
    exact ⟨consistent_of_no_phase hp' hb' (by simpa using hs.cmd_le), cmdNamesPhase_of_no_phase hp'⟩

theorem takeTurn_keeps_engine_invariants {τ : Turn} (hs : s.Consistent) (hn : s.CmdNamesPhase)
    (h : takeTurn τ s = .next t) : t.Consistent ∧ t.CmdNamesPhase := by
  obtain ⟨_, rfl⟩ | ⟨d, _, rfl⟩ | ⟨_, _, rfl⟩ | ⟨_, _, w, _, hw⟩ := takeTurn_cases h
  · exact ⟨consistent_resetBlock s, cmdNamesPhase_of_no_phase rfl⟩
  · exact complete_keeps_engine_invariants hs hn d
  · exact ⟨hs, hn⟩
  · exact exec_keeps_engine_invariants hs hn hw

/-- Settles O48, by the four things that a turn can do: reset, a completion, nothing, or one host access. -/
theorem stepKeepsEngineConsistency : Obligations.StepKeepsEngineConsistency := by
  intro s t hs hn h
  have hsame := sameEngine_turnTaken s
  exact takeTurn_keeps_engine_invariants (hs.congr hsame) (hn.congr hsame) h

/-- What every step keeps, every run keeps. -/
theorem runSteps_keeps {P : State → Prop} (hstep : ∀ s t, P s → step s = .next t → P t) {n : Nat}
    (hs : P s) (h : runSteps n s = .next t) : P t := by
  induction n generalizing s with
  | zero => cases h; exact hs
  | succ n ih =>
    rw [runSteps] at h
    split at h
    next u hu => exact ih (hstep s u hs hu) h
    next => cases h
    next => cases h

/-- Settles O50: the invariants hold right after a reset and every step keeps them (O48). -/
theorem reachableStatesAreConsistent : Obligations.ReachableStatesAreConsistent := by
  intro n s t h
  have hkeeps : ∀ s t : State, s.Consistent ∧ s.CmdNamesPhase → step s = .next t →
      t.Consistent ∧ t.CmdNamesPhase := fun s t hs => stepKeepsEngineConsistency s t hs.1 hs.2
  exact (runSteps_keeps hkeeps ⟨consistent_resetBlock s, cmdNamesPhase_of_no_phase rfl⟩ h).1

/-- Settles O47: no phase is in flight after reset, and the one event `Reset` leaves OPEN and NACK at 0. -/
theorem resetStateMeetsInvariants : Obligations.ResetStateMeetsInvariants :=
  ⟨consistent_of_no_phase rfl rfl (by decide), cmdNamesPhase_of_no_phase rfl, ⟨rfl, rfl⟩⟩

/-! ### The engine's mode (R37) -/

theorem mode_of_no_phase (h : s.phase = .none) : s.mode = if s.opened then .held else .idle := if_pos h

theorem mode_of_phase (h : s.phase ≠ .none) : s.mode = .active s.phase := if_neg h

/-- The mode is a function of PHASE and OPEN. -/
theorem mode_congr (hp : t.phase = s.phase) (ho : t.opened = s.opened) : t.mode = s.mode := by
  unfold State.mode
  rw [hp, ho]

theorem SameEngine.mode_eq (h : SameEngine s t) : t.mode = s.mode := mode_congr h.phase h.opened

theorem mode_accept (ha : acceptable c s) : (accept c s).mode = .active (kind c) :=
  mode_of_phase (kind_ne_none_of_acceptable ha)

/-- A host access moves the mode only by an acceptance. -/
theorem exec_mode (h : exec i s = .next t) :
    t.mode = s.mode ∨ (s.busy = false ∧ ∃ c, acceptable c s ∧ t = accept c s) := by
  obtain heq | ⟨_, rfl⟩ | hacc := (exec_effect h).on_engine
  · exact .inl heq.mode_eq
  · exact .inl (mode_congr rfl rfl)
  · exact .inr hacc

/-- From a mode without a phase in flight, an acceptance leads where R37's table lets it. -/
theorem mode_accept_cases (hp : s.phase = .none) (ha : acceptable c s) :
    (s.mode = .idle ∧ (accept c s).mode = .active .start) ∨
      (s.mode = .held ∧ ∃ k, k ≠ .none ∧ (accept c s).mode = .active k) := by
  rw [mode_of_no_phase hp, mode_accept ha]
  cases ho : s.opened with
  | false =>
    obtain rfl := eq_start_of_acceptable_closed ha ho
    exact .inl ⟨rfl, rfl⟩
  | true => exact .inr ⟨rfl, kind c, kind_ne_none_of_acceptable ha, rfl⟩

theorem mode_complete (d : Draw) (hs : s.Consistent) (hp : s.phase ≠ .none) :
    (complete d s).mode = if s.phase = .stop then .idle else .held := by
  obtain ⟨hp', _, _, hopen⟩ := complete_ends_phase d hp
  rw [mode_of_no_phase hp', hopen hs.needs_open]
  by_cases hk : s.phase = .stop <;> simp [hk]

/-- Settles O46: a host access moves the mode only by an acceptance (`exec_mode`), and the other turns that
move it are a reset and a completion of a phase in flight. -/
theorem modeTransitions : Obligations.ModeTransitions := by
  refine ⟨fun i s t hs h => ?_, fun d s hs hp => mode_complete d hs hp, fun s => rfl, fun s t h hmove => ?_⟩
  · obtain hsame | ⟨hb, c, ha, rfl⟩ := exec_mode h
    · exact .inl hsame
    · exact .inr (mode_accept_cases (hs.phase_none hb) ha)
  · have hidle : (turnTaken s).mode = s.mode := (sameEngine_turnTaken s).mode_eq
    obtain ⟨hr, _⟩ | ⟨d, hd, rfl⟩ | ⟨_, _, rfl⟩ | ⟨_, _, w, hw, hexec⟩ := takeTurn_cases h
    · exact .inl hr
    · have hp : s.phase ≠ .none := fun hp => hmove (by rw [complete_of_no_phase (by simpa using hp), hidle])
      exact .inr (.inl ⟨d, hd, hp⟩)
    · exact absurd hidle hmove
    · obtain hsame | ⟨hb, c, _, rfl⟩ := exec_mode hexec
      · exact absurd (hsame.trans hidle) hmove
      · exact .inr (.inr ⟨w, hw, hexec, hb, rfl⟩)

/-- Settles O45: only an acceptance and a rejection reach DONE (`HostEffect.on_engine`). -/
theorem doneFollowsAcceptanceAndCompletion : Obligations.DoneFollowsAcceptanceAndCompletion := by
  refine ⟨fun i s t h hs ht => ?_, fun i s t h hs ht => ?_, fun d s hp => ?_, fun s => rfl⟩
  · obtain heq | ⟨_, rfl⟩ | ⟨hb, c, ha, rfl⟩ := (exec_effect h).on_engine
    · simp [heq.done, hs] at ht
    · simp at ht
    · exact ⟨hb, rfl, c, rfl, rfl, kind_ne_none_of_acceptable ha⟩
  · obtain heq | ⟨hb, rfl⟩ | ⟨_, c, _, rfl⟩ := (exec_effect h).on_engine
    · simp [heq.done, hs] at ht
    · exact ⟨hb, rfl⟩
    · simp at ht
  · obtain ⟨_, _, hdone, _⟩ := complete_ends_phase d hp
    exact hdone

end Sys2Proof.Machine
end

section
/-! The family 10_state.md, continued: the rows by the register they reach, the sticky flags (R26, R27) and
the checksum (R31). -/

namespace Sys2Proof.Machine

variable {s t : State} {i : Instr} {c : Code}

/-! ### The rows by the register they reach (20_memory.md R50) -/

/-- The command code that a row writes to CTRL (30_encoding.md R75). -/
def ctrlCode : Instr → Option Code
  | .nop => some 0b000#3
  | .start => some 0b001#3
  | .stop => some 0b010#3
  | .write => some 0b011#3
  | .readAck => some 0b100#3
  | .readNack => some 0b101#3
  | .cmdRsv r => some (rsvCode r)
  | _ => none

theorem exec_of_ctrlCode (h : ctrlCode i = some c) (s : State) : exec i s = .next (ctrlWrite c s) := by
  cases i <;> cases h <;> rfl

/-- What the rows do, one constructor for each register written, and one for all reads. -/
inductive RowEffect (s : State) : Instr → State → Prop where
  | ctrl {i : Instr} {c : Code} : ctrlCode i = some c → RowEffect s i (ctrlWrite c s)
  | status (b : Byte) : RowEffect s (.wrStatus b) (clearFlags b s)
  | data (b : Byte) : RowEffect s (.wrData b) (dataWrite b s)
  | reserved (o : BitVec 1) (b : Byte) : RowEffect s (.wrRsv o b) s
  | crcCtrlNop : RowEffect s .crcCtrlNop s
  | crcInit : RowEffect s .crcInit (setCrcAcc crcSeed s)
  | crcFeed (b : Byte) : RowEffect s (.crcFeed b) (setCrcAcc (crc8Step s.crcAcc b) s)
  | crcAcc (b : Byte) : RowEffect s (.wrCrcAcc b) s
  | read {i : Instr} (v : Byte) : isRead i = true → RowEffect s i (answer v s)

/-- The inversion lemma of `exec` that keeps the row. -/
theorem exec_row (h : exec i s = .next t) : RowEffect s i t := by
  cases i with
  | nop => cases h; exact .ctrl rfl
  | start => cases h; exact .ctrl rfl
  | stop => cases h; exact .ctrl rfl
  | write => cases h; exact .ctrl rfl
  | readAck => cases h; exact .ctrl rfl
  | readNack => cases h; exact .ctrl rfl
  | cmdRsv r => cases h; exact .ctrl rfl
  | wrStatus b => cases h; exact .status b
  | wrData b => cases h; exact .data b
  | wrRsv o b => cases h; exact .reserved o b
  | crcCtrlNop => cases h; exact .crcCtrlNop
  | crcInit => cases h; exact .crcInit
  | crcFeed b => cases h; exact .crcFeed b
  | wrCrcAcc b => cases h; exact .crcAcc b
  | rdCtrl => cases h; exact .read _ rfl
  | rdStatus => cases h; exact .read _ rfl
  | rdData => cases h; exact .read _ rfl
  | rdRsv o => cases h; exact .read _ rfl
  | rdCrcCtrl => cases h; exact .read _ rfl
  | rdCrcData => cases h; exact .read _ rfl
  | rdCrcAcc => cases h; exact .read _ rfl

theorem ctrlCode_of_isRead (h : isRead i = true) : ctrlCode i = none := by
  cases i <;> cases h <;> rfl

theorem ne_wrData_of_isRead (h : isRead i = true) (b : Byte) : i ≠ .wrData b := by
  rintro rfl; cases h

/-! ### The rows the two flags speak of -/

/-- A row that R26 has the engine reject: not busy, and a reserved code, or a code that needs an open
transaction where there is none. -/
def Rejects (i : Instr) (s : State) : Prop :=
  s.busy = false ∧ ((∃ c, i = .cmdRsv c) ∨ s.opened = false ∧ i ∈ [.stop, .write, .readAck, .readNack])

/-- A row that writes CTRL or DATA (R27). -/
def WritesCtrlOrData (i : Instr) : Prop :=
  (∃ c, i = .cmdRsv c) ∨ (∃ b, i = .wrData b) ∨ i ∈ [.nop, .start, .stop, .write, .readAck, .readNack]

/-- A STATUS write with bit `n` set. -/
def WritesStatusBit (n : Nat) (i : Instr) : Prop := ∃ b : Byte, i = .wrStatus b ∧ b.getLsbD n = true

/-- Which rows write a code that R100 rejects. -/
theorem rejects_iff : Rejects i s ↔ s.busy = false ∧
    ∃ c, ctrlCode i = some c ∧ (reservedCode c = true ∨ needsOpen c = true ∧ s.opened = false) := by
  cases i with
  | cmdRsv r =>
    have : reservedCode (rsvCode r) = true := by revert r; decide
    simp [Rejects, ctrlCode, this]
  | _ => simp [Rejects, ctrlCode, reservedCode, needsOpen]

theorem writesCtrlOrData_iff : WritesCtrlOrData i ↔ (∃ c, ctrlCode i = some c) ∨ ∃ b, i = .wrData b := by
  cases i <;> simp [WritesCtrlOrData, ctrlCode]

theorem not_writesStatusBit_of_ctrlCode (h : ctrlCode i = some c) (n : Nat) : ¬ WritesStatusBit n i := by
  rintro ⟨b, rfl, _⟩; cases h

theorem WritesStatusBit.not_rejects {n : Nat} (h : WritesStatusBit n i) : ¬ Rejects i s := fun hr =>
  let ⟨_, _, hc, _⟩ := rejects_iff.mp hr
  not_writesStatusBit_of_ctrlCode hc n h

theorem WritesStatusBit.not_writesCtrlOrData {n : Nat} (h : WritesStatusBit n i) : ¬ WritesCtrlOrData i := by
  obtain ⟨b, rfl, _⟩ := h
  simp [WritesCtrlOrData]

theorem not_writesStatusBit_of_isRead (h : isRead i = true) (n : Nat) : ¬ WritesStatusBit n i := by
  rintro ⟨b, rfl, _⟩; cases h

/-! ### The flags after each register write -/

/-- A CTRL write sets ERR by `reject` and in no other way. -/
theorem ctrlWrite_err (c : Code) (s : State) : (ctrlWrite c s).err = true ↔ s.err = true ∨
    s.busy = false ∧ (reservedCode c = true ∨ needsOpen c = true ∧ s.opened = false) := by
  obtain ⟨hb, h⟩ | ⟨_, rfl, h⟩ | ⟨hb, hr, h⟩ | ⟨_, ⟨_, hr, ho⟩, h⟩ := ctrlWrite_cases c s <;> rw [h]
  · simp [hb]
  · simp [reservedCode, needsOpen]
  · simp [hb, hr]
  · have hlegal : ¬ (needsOpen c = true ∧ s.opened = false) := fun ⟨hn, hf⟩ => by simp [ho hn] at hf
    simp [hr, hlegal]

theorem ctrlWrite_wcol (c : Code) (s : State) : (ctrlWrite c s).wcol = (s.busy || s.wcol) := by
  obtain ⟨hb, h⟩ | ⟨hb, _, h⟩ | ⟨hb, _, h⟩ | ⟨hb, _, h⟩ := ctrlWrite_cases c s <;> rw [h] <;> simp [hb]

theorem dataWrite_wcol (b : Byte) (s : State) : (dataWrite b s).wcol = (s.busy || s.wcol) := by
  cases hb : s.busy with
  | true => simp [dataWrite_busy hb]
  | false => simp [dataWrite_free hb]

theorem dataWrite_err (b : Byte) (s : State) : (dataWrite b s).err = s.err := by
  cases hb : s.busy with
  | true => simp [dataWrite_busy hb]
  | false => simp [dataWrite_free hb]

theorem ctrlWrite_crcAcc (c : Code) (s : State) : (ctrlWrite c s).crcAcc = s.crcAcc := by
  obtain ⟨_, h⟩ | ⟨_, _, h⟩ | ⟨_, _, h⟩ | ⟨_, _, h⟩ := ctrlWrite_cases c s <;> rw [h] <;> rfl

theorem dataWrite_crcAcc (b : Byte) (s : State) : (dataWrite b s).crcAcc = s.crcAcc := by
  cases hb : s.busy with
  | true => simp [dataWrite_busy hb]
  | false => simp [dataWrite_free hb]

/-! ### ERR, WCOL and CRC_ACC after any host access -/

/-- ERR after any host access: set by a rejection, else kept but for a STATUS write with bit 4 set. -/
theorem exec_err (h : exec i s = .next t) :
    t.err = true ↔ Rejects i s ∨ s.err = true ∧ ¬ WritesStatusBit 4 i := by
  rw [rejects_iff]
  cases exec_row h with
  | ctrl hc => simp [ctrlWrite_err, hc, not_writesStatusBit_of_ctrlCode hc, or_comm]
  | status b => simp [ctrlCode, WritesStatusBit, clearsErr]
  | data b => simp [ctrlCode, WritesStatusBit, dataWrite_err]
  | read v hr => simp [ctrlCode_of_isRead hr, not_writesStatusBit_of_isRead hr]
  | _ => simp [ctrlCode, WritesStatusBit]

/-- WCOL after any host access: set by a CTRL or DATA write while busy, else kept but for a STATUS write
with bit 5 set. -/
theorem exec_wcol (h : exec i s = .next t) :
    t.wcol = true ↔ (s.busy = true ∧ WritesCtrlOrData i) ∨ s.wcol = true ∧ ¬ WritesStatusBit 5 i := by
  rw [writesCtrlOrData_iff]
  cases exec_row h with
  | ctrl hc => simp [ctrlWrite_wcol, hc, not_writesStatusBit_of_ctrlCode hc]
  | status b => simp [ctrlCode, WritesStatusBit, clearsWcol]
  | data b => simp [ctrlCode, WritesStatusBit, dataWrite_wcol]
  | read v hr => simp [ctrlCode_of_isRead hr, ne_wrData_of_isRead hr, not_writesStatusBit_of_isRead hr]
  | _ => simp [ctrlCode, WritesStatusBit]

/-- A CTRL or DATA write while busy is ignored but for WCOL (R27). -/
theorem exec_collides (hb : s.busy = true) (hi : WritesCtrlOrData i) : exec i s = .next (collide s) := by
  obtain ⟨c, hc⟩ | ⟨b, rfl⟩ := writesCtrlOrData_iff.mp hi
  · rw [exec_of_ctrlCode hc, ctrlWrite_busy hb]
  · rw [exec_wrData, dataWrite_busy hb]

/-- CRC_ACC after a host access that is no CRC_INIT and no CRC_FEED. -/
theorem exec_crcAcc (h : exec i s = .next t) (hinit : i ≠ .crcInit) (hfeed : ∀ b, i ≠ .crcFeed b) :
    t.crcAcc = s.crcAcc := by
  cases exec_row h with
  | ctrl _ => exact ctrlWrite_crcAcc _ s
  | data b => exact dataWrite_crcAcc b s
  | crcInit => exact absurd rfl hinit
  | crcFeed b => exact absurd rfl (hfeed b)
  | _ => rfl

/-! ### The statements -/

/-- Settles O39: the rows that set CRC_ACC are CRC_INIT and CRC_FEED (`exec_crcAcc`), by `setCrcAcc`. -/
theorem crcUnitIsIndependent : Obligations.CrcUnitIsIndependent := by
  refine ⟨fun i s t h => exec_crcAcc h, complete_crcAcc, fun b s t h => ?_⟩
  obtain h | h := h
  · cases h; exact ⟨crcSeed, rfl⟩
  · cases h; exact ⟨crc8Step s.crcAcc b, rfl⟩

/-- Settles O43: `exec_err` for a clear ERR and for a set one. -/
theorem errIsStickyAndMarksRejections : Obligations.ErrIsStickyAndMarksRejections := by
  refine ⟨fun i s t h hs => ?_, fun i s t h hs => ?_, complete_err, fun s => ⟨rfl, ?_⟩⟩
  · have hset : t.err = true ↔ Rejects i s := by simpa [hs] using exec_err h
    exact hset
  · have hkept : t.err = false ↔ ¬ Rejects i s ∧ WritesStatusBit 4 i := by
      rw [← Bool.not_eq_true, exec_err h]; simp [hs]
    exact hkept.trans (and_iff_right_of_imp WritesStatusBit.not_rejects)
  · obtain ⟨_, _, _, _, herr, _⟩ := statusByte_bits s
    exact herr

/-- Settles O44: `exec_wcol` for a clear WCOL and for a set one, and `exec_collides`. -/
theorem wcolIsStickyAndMarksCollisions : Obligations.WcolIsStickyAndMarksCollisions := by
  refine ⟨fun i s t h hs => ?_, fun i s => exec_collides, fun i s t h hs => ?_, complete_wcol,
    fun s => ⟨rfl, ?_⟩⟩
  · have hset : t.wcol = true ↔ s.busy = true ∧ WritesCtrlOrData i := by simpa [hs] using exec_wcol h
    exact hset
  · have hkept : t.wcol = false ↔ ¬ (s.busy = true ∧ WritesCtrlOrData i) ∧ WritesStatusBit 5 i := by
      rw [← Bool.not_eq_true, exec_wcol h]; simp [hs]
    exact hkept.trans (and_iff_right_of_imp fun hw hc => hw.not_writesCtrlOrData hc.2)
  · obtain ⟨_, _, _, _, _, hwcol⟩ := statusByte_bits s
    exact hwcol

end Sys2Proof.Machine
end

section
/-! The family 20_memory.md: turns and accesses on the host's bus (R50, R51, R57), the register window (R50),
reads (R55) and the history (R63). -/

namespace Sys2Proof.Machine

variable {s t : State} {i : Instr}

/-! ### What a host access and a completion do to the history (R63)

The history and the two flags that its events speak of move together. -/

/-- The two states agree on the history and on the flags that R24 and R25 read from its events. -/
structure SameBus (s t : State) : Prop where
  hist : t.hist = s.hist
  opened : t.opened = s.opened
  nack : t.nack = s.nack

theorem sameBus_turnTaken (s : State) : SameBus s (turnTaken s) := ⟨rfl, rfl, rfl⟩

theorem HostEffect.sameBus (h : HostEffect s t) : SameBus s t := by
  cases h <;> exact ⟨rfl, rfl, rfl⟩

theorem exec_sameBus (h : exec i s = .next t) : SameBus s t := (exec_effect h).sameBus

/-- `t` is `s` with one more event, which can stand there and leaves OPEN and NACK as `t` has them. -/
structure Emits (e : BusEvent) (s t : State) : Prop where
  hist : t.hist = s.hist ++ [e]
  opened : e.openAfter s.opened = some t.opened
  nack : e.nackAfter s.nack = t.nack

theorem emits_resetBlock (s : State) : Emits .reset s (resetBlock s) := ⟨rfl, rfl, rfl⟩

/-- A START's completion emits the event that OPEN calls for (40_bus_commands.md R108). -/
theorem emits_completeStart (s : State) :
    Emits (if s.opened then .repStart else .start) s (finish (completeStart s)) where
  hist := rfl
  opened := by cases s.opened <;> rfl
  nack := by cases s.opened <;> rfl

/-- A completion of a phase in flight emits one event, where the phase stands in an open transaction if it
needs one. -/
theorem exists_emits_complete (d : Draw) (hp : s.phase ≠ .none)
    (ho : s.phase.needsOpen = true → s.opened = true) : ∃ e, Emits e s (complete d s) := by
  obtain ⟨hk, h⟩ | ⟨_, h⟩ | ⟨hk, h⟩ | ⟨hk, h⟩ | ⟨hk, h⟩ | ⟨hk, h⟩ := complete_cases d s
  · exact absurd hk hp
  · exact ⟨_, h ▸ emits_completeStart s⟩
  all_goals
    have hopen : s.opened = true := ho (by rw [hk]; rfl)
    rw [h]
    exact ⟨_, rfl, by simp [hopen, BusEvent.openAfter], rfl⟩

/-- Whatever the state, a completion appends at most one event. -/
theorem complete_hist (d : Draw) (s : State) : ∃ e, (complete d s).hist = s.hist ++ e ∧ e.length ≤ 1 := by
  obtain ⟨_, h⟩ | ⟨_, h⟩ | ⟨_, h⟩ | ⟨_, h⟩ | ⟨_, h⟩ | ⟨_, h⟩ := complete_cases d s <;> rw [h]
  · exact ⟨[], by simp, by simp⟩
  all_goals exact ⟨[_], rfl, le_rfl⟩

theorem traceOpen_append (h : List BusEvent) (e : BusEvent) :
    traceOpen (h ++ [e]) = (traceOpen h).bind e.openAfter := by
  simp [traceOpen]

theorem traceNack_append (h : List BusEvent) (e : BusEvent) :
    traceNack (h ++ [e]) = e.nackAfter (traceNack h) := by
  simp [traceNack]

theorem State.HistoryAgrees.congr (hs : s.HistoryAgrees) (h : SameBus s t) : t.HistoryAgrees where
  opened_eq := by rw [h.hist, h.opened, hs.opened_eq]
  nack_eq := by rw [h.hist, h.nack, hs.nack_eq]

theorem State.HistoryAgrees.emits {e : BusEvent} (hs : s.HistoryAgrees) (h : Emits e s t) : t.HistoryAgrees where
  opened_eq := by rw [h.hist, traceOpen_append, hs.opened_eq, Option.bind_some, h.opened]
  nack_eq := by rw [h.hist, traceNack_append, hs.nack_eq, h.nack]

theorem complete_keeps_historyAgrees (hc : s.Consistent) (hs : s.HistoryAgrees) (d : Draw) :
    (complete d s).HistoryAgrees := by
  by_cases hp : s.phase = .none
  · rwa [complete_of_no_phase hp]
  · obtain ⟨e, he⟩ := exists_emits_complete d hp hc.needs_open
    exact hs.emits he

theorem takeTurn_keeps_historyAgrees {τ : Turn} (hc : s.Consistent) (hs : s.HistoryAgrees)
    (h : takeTurn τ s = .next t) : t.HistoryAgrees := by
  obtain ⟨_, rfl⟩ | ⟨d, _, rfl⟩ | ⟨_, _, rfl⟩ | ⟨_, _, w, _, hw⟩ := takeTurn_cases h
  · exact hs.emits (emits_resetBlock s)
  · exact complete_keeps_historyAgrees hc hs d
  · exact hs
  · exact hs.congr (exec_sameBus hw)

/-- Settles O49: a turn emits one event that agrees with OPEN and NACK after it (`Emits`), or leaves the
history and both flags alone (`SameBus`). Consistency has a phase that needs an open transaction stand in
one, so that its event can stand in the history. -/
theorem stepKeepsHistoryAgreement : Obligations.StepKeepsHistoryAgreement := by
  intro s t hc hs h
  exact takeTurn_keeps_historyAgrees (hc.congr (sameEngine_turnTaken s)) (hs.congr (sameBus_turnTaken s)) h

/-- Settles O42, by the four things that a turn can do: reset, a completion, nothing, or one host access. -/
theorem historyOnlyGrows : Obligations.HistoryOnlyGrows := by
  refine ⟨fun s t h => ?_, fun i s t h => (exec_sameBus h).hist⟩
  obtain ⟨_, rfl⟩ | ⟨d, _, rfl⟩ | ⟨_, _, rfl⟩ | ⟨_, _, w, _, hw⟩ := takeTurn_cases h
  · exact ⟨[.reset], rfl, le_rfl⟩
  · exact complete_hist d (turnTaken s)
  · exact ⟨[], by simp, by simp⟩
  · exact ⟨[], by simp [(exec_sameBus hw).hist], by simp⟩

/-! ### The register window (R50) -/

theorem offset_cases (off : Offset) : off = 0#3 ∨ off = 1#3 ∨ off = 2#3 ∨ off = 3#3 ∨ off = 4#3 ∨
    off = 5#3 ∨ off = 6#3 ∨ off = 7#3 := by
  revert off; decide

/-- The low bit of a reserved code is the low bit of the code (30_encoding.md R72, R75). -/
theorem cField_eq (d : Byte) : cField d = (cmdField d).extractLsb' 0 1 := by
  ext k hk
  obtain rfl : k = 0 := by omega
  simp [cField, cmdField]

/-- The row of a CTRL write is the row of the code written, reserved codes included. -/
theorem ctrlCode_decodeCtrl (d : Byte) : ctrlCode (decodeCtrl d) = some (cmdField d) := by
  rw [decodeCtrl, cField_eq]
  generalize cmdField d = c
  revert c
  decide

theorem exec_decodeWrite (off : Offset) (d : Byte) (s : State) :
    exec (decodeWrite off d) s = .next (windowWrite off d s) := by
  obtain rfl | rfl | rfl | rfl | rfl | rfl | rfl | rfl := offset_cases off
  · exact exec_of_ctrlCode (ctrlCode_decodeCtrl d) s
  · exact exec_wrStatus s d
  · exact exec_wrData s d
  · exact exec_wrRsv s _ d
  · change exec (if initField d then .crcInit else .crcCtrlNop) s =
      .next (if initField d then setCrcAcc crcSeed s else s)
    split
    · exact exec_crcInit s
    · exact exec_crcCtrlNop s
  · exact exec_crcFeed s d
  · exact exec_wrCrcAcc s d
  · exact exec_wrRsv s _ d

theorem exec_decodeRead (off : Offset) (s : State) :
    exec (decodeRead off) s = .next (answer (windowByte off s) s) := by
  obtain rfl | rfl | rfl | rfl | rfl | rfl | rfl | rfl := offset_cases off
  · exact exec_rdCtrl s
  · exact exec_rdStatus s
  · exact exec_rdData s
  · exact exec_rdRsv s _
  · exact exec_rdCrcCtrl s
  · exact exec_rdCrcData s
  · exact exec_rdCrcAcc s
  · exact exec_rdRsv s _

/-- Settles O6, one offset at a time: the write column (`exec_decodeWrite`) and the read column
(`exec_decodeRead`). -/
theorem registerWindowAgreesWithRows : Obligations.RegisterWindowAgreesWithRows := by
  intro off d s
  rw [decode_write, decode_read]
  exact ⟨exec_decodeWrite off d s, exec_decodeRead off s⟩

/-! ### Reads (R55) -/

/-- Every read row is the row of a read of some offset. -/
theorem exists_decodeRead_of_isRead (h : isRead i = true) : ∃ off, i = decodeRead off := by
  cases i with
  | rdCtrl => exact ⟨0#3, rfl⟩
  | rdStatus => exact ⟨1#3, rfl⟩
  | rdData => exact ⟨2#3, rfl⟩
  | rdRsv o => exact ⟨rsvOffset o, (decodeRead_rsvOffset o).symm⟩
  | rdCrcCtrl => exact ⟨4#3, rfl⟩
  | rdCrcData => exact ⟨5#3, rfl⟩
  | rdCrcAcc => exact ⟨6#3, rfl⟩
  | _ => cases h

/-- What the window shows does not depend on the bytes returned before, but for DATA while busy. -/
theorem windowByte_answer {off : Offset} (v : Byte) (h : decodeRead off = .rdData → s.busy = false) :
    windowByte off (answer v s) = windowByte off s := by
  obtain rfl | rfl | rfl | rfl | rfl | rfl | rfl | rfl := offset_cases off
  · rfl
  · rfl
  · have hb : s.busy = false := h rfl
    calc dataByte (answer v s)
        = s.data := dataByte_free hb
      _ = dataByte s := (dataByte_free hb).symm
  all_goals rfl

/-- Settles O41: a read answers the window's byte at its offset, which the answer leaves as it is. -/
theorem readsHaveNoSideEffect : Obligations.ReadsHaveNoSideEffect := by
  refine ⟨fun i s hi => ?_, fun i s t u hi hb ht hu => ?_⟩
  · obtain ⟨off, rfl⟩ := exists_decodeRead_of_isRead hi
    exact ⟨_, exec_decodeRead off s⟩
  · obtain ⟨off, rfl⟩ := exists_decodeRead_of_isRead hi
    rw [exec_decodeRead] at ht
    cases ht
    rw [exec_decodeRead, windowByte_answer _ hb] at hu
    cases hu
    exact ⟨windowByte off s, by simp [answer]⟩

/-! ### Turns (R57) and accesses on the host's bus (R50, R51) -/

/-- Settles O7: without a reset the turn's action is taken, which is `exec` of the decoded word. -/
theorem stepRunsDecodedAccess : Obligations.StepRunsDecodedAccess := by
  intro s w h
  calc step s
      = takeTurn (accessTurn w) (turnTaken s) := by rw [step, h]
    _ = exec (decode w) { s with agenda := s.agenda.tail, steps := s.steps + 1 } := rfl

/-- The decoder of table words reads the access word of the number's low bits, or nothing. -/
theorem decode_of_decodeTableWord {nbits w : Nat} (h : decodeTableWord nbits w = some i) :
    decode (BitVec.ofNat 12 (w % 2 ^ nbits)) = i := by
  unfold decodeTableWord wordOfNat at h
  split at h
  next word hword =>
    split at hword
    · cases hword; cases h; rfl
    · cases hword
  next => cases h

/-- Settles O8: the turn put at the head of the agenda is a host access (O7), and taking it off gives the
agenda back. -/
theorem fetchedWordRunsNext : Obligations.FetchedWordRunsNext := by
  intro s nbits w i h
  rw [← decode_of_decodeTableWord h]
  exact stepRunsDecodedAccess _ _ (nextTurn_cons rfl)

theorem step_of_bus {a : BusAccess} (h : nextTurn s = ⟨false, .bus a⟩) :
    step s = takeBusAccess a (turnTaken s) := by
  rw [step, h]; rfl

theorem takeBusAccess_outside {a : BusAccess} (h : a.touchesWindow = false) (s : State) :
    takeBusAccess a s = .next s := by
  simp [takeBusAccess, h]

theorem takeBusAccess_refused {a : BusAccess} (h : a.touchesWindow = true) (hw : a.width ≠ 1) (s : State) :
    takeBusAccess a s = .refused (.accessWidth a.width) := by
  simp [takeBusAccess, h, hw]

/-- Settles O11: the bounds say that the access touches the window (`touchesWindow_iff`). -/
theorem nonByteAccessRefused : Obligations.NonByteAccessRefused := by
  intro s a h hw hlow hhigh
  have htouch : a.touchesWindow = true := (touchesWindow_iff a).mpr ⟨hlow, hhigh⟩
  rw [step_of_bus h, takeBusAccess_refused htouch hw]

/-- Settles O13: below or above the window, the access touches no address of it (`touchesWindow_iff`). -/
theorem accessOutsideWindowIsNotOurs : Obligations.AccessOutsideWindowIsNotOurs := by
  intro s a h hout
  have htouch : a.touchesWindow = false := by
    rw [← Bool.not_eq_true, touchesWindow_iff]
    omega
  rw [step_of_bus h, takeBusAccess_outside htouch]
  rfl

end Sys2Proof.Machine
end

section
/-! The family 20_memory.md, continued: the order in which a sample's bytes are received (R53), as what every
run of `readSample` ensures. -/

namespace Sys2Proof.Machine

variable {α : Type} {s t u : State}

/-! ### A sequence of primitives -/

/-- From OPEN = `o`, each primitive of the list comes in the mode it is meant for, a `start()` in IDLE and
any other in HELD, and the last one leaves OPEN = `o'` (42_transport_primitives.md R172 to R176). -/
def LegalFrom : Bool → List Primitive → Bool → Prop
  | o, [], o' => o = o'
  | o, p :: ps, o' => o = decide (p ≠ .start) ∧ LegalFrom (decide (p ≠ .stop)) ps o'

/-- What the runs `rs` of primitives, one after another, leave of the state they start in: `s` before them
and `t` after them (42_transport_primitives.md R181). -/
structure SequenceDone (rs : List PrimitiveRun) (s t : State) : Prop where
  phase : t.phase = .none
  busy : t.busy = false
  hist : t.hist = s.hist ++ rs.map PrimitiveRun.event
  err : t.err = s.err
  wcol : t.wcol = s.wcol
  crcAcc : t.crcAcc = s.crcAcc

theorem sequenceDone_nil (hs : s.phase = .none) (hb : s.busy = false) : SequenceDone [] s s :=
  ⟨hs, hb, by simp, rfl, rfl, rfl⟩

theorem PrimitiveDone.cons {p : Primitive} {d : Draw} {rs : List PrimitiveRun} (h : PrimitiveDone p d s t)
    (hrs : SequenceDone rs t u) : SequenceDone (⟨p, 0, d⟩ :: rs) s u where
  phase := hrs.phase
  busy := hrs.busy
  hist := by simp [hrs.hist, h.hist]
  err := hrs.err.trans h.err
  wcol := hrs.wcol.trans h.wcol
  crcAcc := hrs.crcAcc.trans h.crcAcc

theorem receivedBytes_cons (r : PrimitiveRun) (rs : List PrimitiveRun) :
    receivedBytes (r :: rs) = receivedBytes [r] ++ receivedBytes rs :=
  List.filterMap_append (l := [r])

/-- What every run of a legal sequence ensures is what it ensures after all its completions, with every
answer, and with the bytes then received. -/
theorem ensures_sequence {ps : List Primitive} {o : Bool} {f : List Byte → Program α}
    {Post : α → State → Prop} (hs : s.phase = .none) (hb : s.busy = false) (hl : LegalFrom s.opened ps o)
    (h : ∀ rs t, rs.map PrimitiveRun.prim = ps → SequenceDone rs s t → t.opened = o →
      (f (receivedBytes rs)).Ensures t Post) :
    ((Program.sequence ps).bind f).Ensures s Post := by
  induction ps generalizing s f with
  | nil => exact h [] s rfl (sequenceDone_nil hs hb) hl
  | cons p ps ih =>
    obtain ⟨ho, hl⟩ := hl
    rw [bind_sequence_cons]
    refine ensures_primitive hs hb ho fun d t hp => ?_
    refine ih hp.phase hp.busy (hp.opened ▸ hl) fun rs u hrs hdone hu => ?_
    rw [← receivedBytes_cons]
    exact h (⟨p, 0, d⟩ :: rs) u (by rw [List.map_cons, hrs]) (hp.cons hdone) hu

/-! ### The two transactions of a round (44_bus_transactions.md R215, R217) -/

theorem legal_sensorTrigger (tr : Byte) : LegalFrom false (sensorTrigger tr) false := by
  simp [sensorTrigger, LegalFrom]

theorem legal_sensorRead : LegalFrom false sensorRead false := by
  simp [sensorRead, LegalFrom]

/-- The events of a trigger, with the answers to its two bytes. -/
def triggerEvents (tr : Byte) (a₁ a₂ : Ack) : List BusEvent :=
  [.start, .write (addrW Config.sensorAddr) a₁, .write tr a₂, .stop]

/-- The events of a read, with the answer to its address byte: the high byte first, then the low byte, then
the checksum (20_memory.md R53). -/
def readingEvents (a : Ack) (r : Reading) : List BusEvent :=
  [.start, .write (addrR Config.sensorAddr) a, .read r.high .ack, .read r.low .ack, .read r.check .nack, .stop]

theorem events_of_sensorTrigger {rs : List PrimitiveRun} {tr : Byte}
    (h : rs.map PrimitiveRun.prim = sensorTrigger tr) :
    ∃ a₁ a₂, rs.map PrimitiveRun.event = triggerEvents tr a₁ a₂ :=
  match rs, h with
  | [⟨_, _, _⟩, ⟨_, _, d₁⟩, ⟨_, _, d₂⟩, ⟨_, _, _⟩], rfl => ⟨d₁.ack, d₂.ack, rfl⟩

theorem events_of_sensorRead {rs : List PrimitiveRun} (h : rs.map PrimitiveRun.prim = sensorRead) :
    ∃ a r, rs.map PrimitiveRun.event = readingEvents a r ∧ Reading.ofReceived (receivedBytes rs) = some r :=
  match rs, h with
  | [⟨_, _, _⟩, ⟨_, _, d⟩, ⟨_, _, h⟩, ⟨_, _, l⟩, ⟨_, _, c⟩, ⟨_, _, _⟩], rfl =>
    ⟨d.ack, ⟨h.byte, l.byte, c.byte⟩, rfl, rfl⟩

/-! ### A round and the sample (R219 to R221) -/

/-- What a round with trigger `tr` that receives the reading `r` leaves of the state it starts in: `s` before
it and `t` after it. -/
structure RoundDone (tr : Byte) (a₁ a₂ a₃ : Ack) (r : Reading) (s t : State) : Prop where
  phase : t.phase = .none
  busy : t.busy = false
  opened : t.opened = false
  hist : t.hist = s.hist ++ (triggerEvents tr a₁ a₂ ++ readingEvents a₃ r)
  err : t.err = s.err
  wcol : t.wcol = s.wcol
  crcAcc : t.crcAcc = crcCompute [r.high, r.low]

/-- A round goes on with its verdict, which is over the bytes of its own events. -/
theorem ensures_sampleRound {tr : Byte} {f : Option (BitVec 16) → Program α} {Post : α → State → Prop}
    (hs : s.phase = .none) (hb : s.busy = false) (ho : s.opened = false)
    (h : ∀ a₁ a₂ a₃ r t, RoundDone tr a₁ a₂ a₃ r s t → (f (verifyReading r)).Ensures t Post) :
    ((sampleRound tr).bind f).Ensures s Post := by
  rw [sampleRound, bind_assoc]
  refine ensures_sequence (o := false) hs hb (ho ▸ legal_sensorTrigger tr) fun trig t htrig ht hto => ?_
  rw [bind_waits, bind_assoc]
  refine ensures_waits _ ht.phase fun n => ?_
  refine ensures_sequence (o := false) ht.phase ht.busy (hto ▸ legal_sensorRead) fun read u hread hu huo => ?_
  obtain ⟨a₁, a₂, etrig⟩ := events_of_sensorTrigger htrig
  obtain ⟨a₃, r, eread, hr⟩ := events_of_sensorRead hread
  rw [hr]
  refine ensures_checkReading hu.phase fun v hv => h a₁ a₂ a₃ r v ?_
  exact {
    phase := hv.phase.trans hu.phase
    busy := hv.busy.trans hu.busy
    opened := hv.opened.trans huo
    hist := by rw [hv.hist, hu.hist, ht.hist, etrig, eread, List.append_assoc]
    err := hv.err.trans (hu.err.trans ht.err)
    wcol := hv.wcol.trans (hu.wcol.trans ht.wcol)
    crcAcc := hv.crcAcc }

/-- A field of the sample after its round: converted where the check holds, else as before (R218, R221). -/
theorem keep_verifyReading (convert : BitVec 16 → Int) (previous : Int) (r : Reading) :
    keep convert previous (verifyReading r) =
      if crcCompute [r.high, r.low] = r.check then convert (r.high ++ r.low) else previous := by
  unfold verifyReading Reading.verdict
  split <;> rfl

/-- What `readSample` leaves of the state it starts in, with its result: a round for each quantity, and the
previous sample updated by the two verdicts. -/
def SampleDone (previous : Sample) (s : State) (sample : Sample) (t : State) : Prop :=
  ∃ a₁ a₂ a₃ a₄ a₅ a₆ rT rH u, RoundDone triggerTemperature a₁ a₂ a₃ rT s u ∧
    RoundDone triggerHumidity a₄ a₅ a₆ rH u t ∧
    sample = previous.update (verifyReading rT) (verifyReading rH)

theorem ensures_readSample (previous : Sample) (hs : s.phase = .none) (hb : s.busy = false)
    (ho : s.opened = false) : (readSample previous).Ensures s (SampleDone previous s) := by
  refine ensures_sampleRound hs hb ho fun a₁ a₂ a₃ rT u hT => ?_
  refine ensures_sampleRound hT.phase hT.busy hT.opened fun a₄ a₅ a₆ rH v hH => ?_
  exact ensures_done hH.phase fun n => ⟨a₁, a₂, a₃, a₄, a₅, a₆, rT, rH, u, hT, { hH with }, rfl⟩

/-- Settles O60: two rounds (`ensures_readSample`), each field of the sample by its own round's verdict
(`keep_verifyReading`). -/
theorem readSampleEffect : Obligations.ReadSampleEffect := by
  intro previous sample xs s t hs hb ho hx hrun
  obtain ⟨a₁, a₂, a₃, a₄, a₅, a₆, rT, rH, u, hT, hH, rfl⟩ :=
    ensures_readSample previous hs hb ho xs sample t hx hrun
  have hhist : t.hist = s.hist ++ ((triggerEvents triggerTemperature a₁ a₂ ++ readingEvents a₃ rT) ++
      (triggerEvents triggerHumidity a₄ a₅ ++ readingEvents a₆ rH)) := by
    rw [hH.hist, hT.hist, List.append_assoc]
  have hmode : t.mode = .idle := by simp [mode_of_no_phase hH.phase, hH.opened]
  exact ⟨a₁, a₂, a₃, a₄, a₅, a₆, rT.high, rT.low, rT.check, rH.high, rH.low, rH.check, hhist,
    keep_verifyReading _ _ rT, keep_verifyReading _ _ rH, hmode, hH.busy, hH.err.trans hT.err,
    hH.wcol.trans hT.wcol, hH.crcAcc⟩

end Sys2Proof.Machine
end

section
/-! The family 30_encoding.md: the bits of an access word that its row reads, the round trip of the encoder
and the decoder, the rows of the opcode map (R73), the ignored bits (R77, R80) and the byte access on the
host's bus (R71). -/

namespace Sys2Proof.Machine

/-! ### The round trip (R70, R73) -/

/-- Settles O1. A row without an operand has one fixed word; a row with one takes it from the field in which
`accessWord` puts it. -/
theorem decodeOfEncodeIsIdentity : Obligations.DecodeOfEncodeIsIdentity := by
  intro i
  cases i with
  | cmdRsv c => exact (decode_write _ _).trans (decodeCtrl_rsvCode c)
  | wrStatus d => exact decode_write 0x1#3 d
  | wrData d => exact decode_write 0x2#3 d
  | wrRsv o d => exact (decode_write _ _).trans (decodeWrite_rsvOffset o d)
  | crcFeed d => exact decode_write 0x5#3 d
  | wrCrcAcc d => exact decode_write 0x6#3 d
  | rdRsv o => exact (decode_read _ _).trans (decodeRead_rsvOffset o)
  | _ => rfl

/-- No two instructions share an access word: the decoder tells them apart. -/
theorem encode_injective : Function.Injective encode :=
  Function.LeftInverse.injective decodeOfEncodeIsIdentity

/-! ### The bits of a written byte that a row reads (R72) -/

theorem cmdField_and_mask (d : Byte) : cmdField (d &&& 0x07#8) = cmdField d := by
  rw [cmdField, BitVec.extractLsb'_and]
  exact BitVec.and_allOnes

theorem clearsErr_and_mask (d : Byte) : clearsErr (d &&& 0x30#8) = clearsErr d := by
  rw [clearsErr, BitVec.getLsbD_and]
  exact Bool.and_true _

theorem clearsWcol_and_mask (d : Byte) : clearsWcol (d &&& 0x30#8) = clearsWcol d := by
  rw [clearsWcol, BitVec.getLsbD_and]
  exact Bool.and_true _

theorem initField_and {m : Byte} (hm : initField m = true) (d : Byte) : initField (d &&& m) = initField d := by
  rw [initField, BitVec.getLsbD_and, show m.getLsbD 0 = true from hm, Bool.and_true, initField]

/-- The byte of a CTRL write with 0 in its ignored bits holds the command code alone (R75, R77). -/
theorem and_seven_eq_cmdField (d : Byte) : d &&& 0x07#8 = 0b00000#5 ++ cmdField d := by
  have hhigh : (d &&& 0x07#8).extractLsb' 3 5 = 0b00000#5 := by
    rw [BitVec.extractLsb'_and]
    exact BitVec.and_zero
  have hsplit : (d &&& 0x07#8).extractLsb' 3 5 ++ cmdField (d &&& 0x07#8) = d &&& 0x07#8 :=
    (BitVec.extractLsb'_append_extractLsb'_eq_extractLsb' rfl).trans BitVec.extractLsb'_eq_self
  rw [← hsplit, hhigh, cmdField_and_mask]

/-- The byte of a CRC_CTRL write with 0 in its ignored bits holds `INIT` alone (R72, R77). -/
theorem and_one_eq_initField (d : Byte) : d &&& 0x01#8 = if initField d then 0x01#8 else 0x00#8 := by
  rw [initField, BitVec.and_one_eq_setWidth_ofBool_getLsbD]
  cases d.getLsbD 0 <;> rfl

/-! ### Masks over the fields of an access word (R70) -/

theorem exists_accessWord (w : AccessWord) : ∃ b off d, w = accessWord b off d :=
  ⟨wField w, offField w, dField w, (accessWord_fields w).symm⟩

theorem accessWord_and (b b' : Bool) (off off' : Offset) (d d' : Byte) :
    accessWord b off d &&& accessWord b' off' d' = accessWord (b && b') (off &&& off') (d &&& d') := by
  unfold accessWord
  rw [BitVec.and_append, BitVec.and_append, BitVec.ofBool_and_ofBool]

theorem accessWord_or (b b' : Bool) (off off' : Offset) (d d' : Byte) :
    accessWord b off d ||| accessWord b' off' d' = accessWord (b || b') (off ||| off') (d ||| d') := by
  unfold accessWord
  rw [BitVec.or_append, BitVec.or_append, BitVec.ofBool_or_ofBool]

section Masks

variable (b : Bool) (off : Offset) (d : Byte)

theorem accessWord_and_w : accessWord b off d &&& 0x800#12 = accessWord b 0x0#3 0x00#8 :=
  (accessWord_and b true off 0x0#3 d 0x00#8).trans (by simp)

theorem accessWord_and_off : accessWord b off d &&& 0x700#12 = accessWord false off 0x00#8 :=
  (accessWord_and b false off 0x7#3 d 0x00#8).trans
    (by rw [Bool.and_false, BitVec.and_zero, show off &&& 0x7#3 = off from BitVec.and_allOnes])

/-- A mask with 1 in `W` and `OFF` acts on the byte alone. -/
theorem accessWord_and_byte (m : Byte) :
    accessWord b off d &&& accessWord true 0x7#3 m = accessWord b off (d &&& m) := by
  rw [accessWord_and, Bool.and_true, show off &&& 0x7#3 = off from BitVec.and_allOnes]

end Masks

/-! ### The rows of the opcode map (R73) -/

/-- No row looks at `D[7:3]`. -/
theorem covers_and_mask {r : Row} (hr : r ∈ opcodeMap) (w : AccessWord) :
    r.covers (w &&& 0xF07#12) = r.covers w := by
  have hmask : 0xF07#12 &&& r.mask = r.mask := by revert r; decide
  rw [Row.covers, Row.covers, BitVec.and_assoc, hmask]

theorem decodeCtrl_and_mask (d : Byte) : decodeCtrl (d &&& 0x07#8) = decodeCtrl d := by
  rw [decodeCtrl, decodeCtrl, cField_eq, cField_eq, cmdField_and_mask]

theorem decodeWrite_crcCtrl (d : Byte) : decodeWrite 0x4#3 d = if initField d then .crcInit else .crcCtrlNop := rfl

/-- The decoder picks the row of a CTRL write by its code, and of a CRC_CTRL write by `INIT`. -/
theorem mnemonic_decodeWrite_and_mask (off : Offset) (d : Byte) :
    mnemonic (decodeWrite off (d &&& 0x07#8)) = mnemonic (decodeWrite off d) := by
  obtain rfl | rfl | rfl | rfl | rfl | rfl | rfl | rfl := offset_cases off
  · exact congrArg mnemonic (decodeCtrl_and_mask d)
  · rfl
  · rfl
  · rfl
  · rw [decodeWrite_crcCtrl, decodeWrite_crcCtrl, initField_and rfl]
  · rfl
  · rfl
  · rfl

theorem mnemonic_decode_and_mask (w : AccessWord) :
    mnemonic (decode (w &&& 0xF07#12)) = mnemonic (decode w) := by
  obtain ⟨b, off, d, rfl⟩ := exists_accessWord w
  rw [show accessWord b off d &&& 0xF07#12 = _ from accessWord_and_byte b off d 0x07#8]
  cases b with
  | false => rw [decode_read, decode_read]
  | true => rw [decode_write, decode_write, mnemonic_decodeWrite_and_mask]

/-- The partition of R73 for the words with 0 in `D[7:3]`, the words the rows tell apart. -/
theorem rows_of_code : ∀ (b : Bool) (off : Offset) (c : Code),
    (opcodeMap.filter fun r => r.covers (accessWord b off (0b00000#5 ++ c))).map Row.mnemonic =
      [mnemonic (decode (accessWord b off (0b00000#5 ++ c)))] := by
  decide

/-- Settles O2: neither the rows (`covers_and_mask`) nor the decoder's choice of a row
(`mnemonic_decode_and_mask`) looks at `D[7:3]`, so the words with 0 there decide it. -/
theorem rowsPartitionAccessWords : Obligations.RowsPartitionAccessWords := by
  intro w
  have hkey : ∃ b off, ∃ c : Code, w &&& 0xF07#12 = accessWord b off (0b00000#5 ++ c) := by
    obtain ⟨b, off, d, rfl⟩ := exists_accessWord w
    exact ⟨b, off, cmdField d, (accessWord_and_byte b off d 0x07#8).trans (by rw [and_seven_eq_cmdField])⟩
  obtain ⟨b, off, c, hw⟩ := hkey
  calc (opcodeMap.filter fun r => r.covers w).map Row.mnemonic
      = (opcodeMap.filter fun r => r.covers (w &&& 0xF07#12)).map Row.mnemonic := by
        rw [List.filter_congr fun r hr => covers_and_mask hr w]
    _ = [mnemonic (decode (w &&& 0xF07#12))] := by rw [hw, rows_of_code]
    _ = [mnemonic (decode w)] := by rw [mnemonic_decode_and_mask]

/-! ### The kept bits (R77) -/

/-- An access word with 0 in every bit that its row ignores: `D` of a read, `D[7:3]` of a CTRL write and
`D[7:1]` of a CRC_CTRL write. -/
def keptWord (w : AccessWord) : AccessWord :=
  if w &&& 0x800#12 = 0x000#12 then w &&& 0xF00#12
  else if w &&& 0x700#12 = 0x000#12 then w &&& 0xF07#12
  else if w &&& 0x700#12 = 0x400#12 then w &&& 0xF01#12
  else w

theorem keptWord_read (off : Offset) (d : Byte) :
    keptWord (accessWord false off d) = accessWord false off 0x00#8 := by
  rw [keptWord, if_pos (show _ = 0x000#12 from accessWord_and_w false off d)]
  exact (accessWord_and_byte false off d 0x00#8).trans (by rw [BitVec.and_zero])

/-- Which bits of a write are kept is a question of its offset. -/
theorem keptWord_write (off : Offset) (d : Byte) :
    keptWord (accessWord true off d) =
      if off = 0x0#3 then accessWord true off (d &&& 0x07#8)
      else if off = 0x4#3 then accessWord true off (d &&& 0x01#8)
      else accessWord true off d := by
  have hctrl : ∀ o : Offset, accessWord false o 0x00#8 = 0x000#12 ↔ o = 0x0#3 := by decide
  have hcrc : ∀ o : Offset, accessWord false o 0x00#8 = 0x400#12 ↔ o = 0x4#3 := by decide
  have hw : accessWord true off d &&& 0x800#12 ≠ 0x000#12 := by rw [accessWord_and_w]; decide
  rw [keptWord, if_neg hw, accessWord_and_off]
  simp only [hctrl, hcrc, ← accessWord_and_byte]
  rfl

theorem encode_decodeRead (off : Offset) : encode (decodeRead off) = accessWord false off 0x00#8 := by
  revert off; decide

theorem encode_decodeCtrl (d : Byte) : encode (decodeCtrl d) = accessWord true 0x0#3 (d &&& 0x07#8) := by
  rw [and_seven_eq_cmdField, decodeCtrl, cField_eq]
  generalize cmdField d = c
  revert c
  decide

theorem encode_decodeCrcCtrl (d : Byte) :
    encode (decodeWrite 0x4#3 d) = accessWord true 0x4#3 (d &&& 0x01#8) := by
  rw [decodeWrite_crcCtrl, and_one_eq_initField]
  split <;> rfl

theorem encode_decodeWrite (off : Offset) (d : Byte) :
    encode (decodeWrite off d) = keptWord (accessWord true off d) := by
  rw [keptWord_write]
  obtain rfl | rfl | rfl | rfl | rfl | rfl | rfl | rfl := offset_cases off
  · exact encode_decodeCtrl d
  · rfl
  · rfl
  · rfl
  · exact encode_decodeCrcCtrl d
  · rfl
  · rfl
  · rfl

theorem encode_decode (w : AccessWord) : encode (decode w) = keptWord w := by
  obtain ⟨b, off, d, rfl⟩ := exists_accessWord w
  cases b with
  | false => rw [decode_read, encode_decodeRead, keptWord_read]
  | true => rw [decode_write, encode_decodeWrite]

/-- Settles O3: the encoder maps two decoded words to their kept bits (`encode_decode`), and it maps no two
instructions to one word (`encode_injective`). -/
theorem decoderReadsTheKeptBits : Obligations.DecoderReadsTheKeptBits := by
  change (∀ v w, decode v = decode w ↔ keptWord v = keptWord w) ∧ ∀ w, encode (decode w) = keptWord w
  refine ⟨fun v w => ?_, encode_decode⟩
  rw [← encode_decode v, ← encode_decode w, encode_injective.eq_iff]

/-! ### The ignored bits have no effect (R77, R80) -/

section IgnoredBits

variable {s : State}

/-- Two writes to one register have the same outcome where the register window takes both bytes alike. -/
theorem exec_write_congr {off : Offset} {d d' : Byte} (h : windowWrite off d s = windowWrite off d' s) :
    exec (decode (accessWord true off d)) s = exec (decode (accessWord true off d')) s := by
  rw [decode_write, decode_write, exec_decodeWrite, exec_decodeWrite, h]

theorem clearFlags_and_mask (d : Byte) (s : State) : clearFlags (d &&& 0x30#8) s = clearFlags d s := by
  rw [clearFlags, clearFlags, clearsErr_and_mask, clearsWcol_and_mask]

theorem windowWrite_rsvOffset (o : BitVec 1) (d : Byte) (s : State) : windowWrite (rsvOffset o) d s = s := by
  obtain rfl | rfl : o = 0#1 ∨ o = 1#1 := by revert o; decide
  all_goals rfl

theorem wellFormed_clearIgnored (i : Instr) : i.clearIgnored.wellFormed = true := by
  cases i with
  | wrStatus d =>
    have hzero : d &&& 0x30#8 &&& 0xCF#8 = 0x00#8 := (BitVec.and_assoc d _ _).trans BitVec.and_zero
    exact beq_iff_eq.mpr hzero
  | _ => rfl

theorem exec_clearIgnored (i : Instr) (s : State) : exec i.clearIgnored s = exec i s := by
  cases i with
  | wrStatus d => exact congrArg _ (clearFlags_and_mask d s)
  | _ => rfl

theorem decode_assemble (i : Instr) : decode (assemble i) = i.clearIgnored :=
  decodeOfEncodeIsIdentity i.clearIgnored

theorem assemble_wrStatus (d : Byte) :
    assemble (.wrStatus d) = 0x900#12 ||| (0b0000#4 ++ (d &&& 0b00110000#8)) := by
  calc accessWord true 0x1#3 (d &&& 0x30#8)
      = accessWord true 0x1#3 0x00#8 ||| accessWord false 0x0#3 (d &&& 0x30#8) := by
        rw [accessWord_or, BitVec.zero_or]; rfl
    _ = 0x900#12 ||| (0b0000#4 ++ (d &&& 0x30#8)) := rfl

/-- Settles O4: for each write, what the register window does with the kept bits; a read's row is its
offset's; the assembler's word decodes to the instruction with its ignored bits cleared. -/
theorem ignoredBitsHaveNoEffect : Obligations.IgnoredBitsHaveNoEffect := by
  intro d s
  refine ⟨exec_write_congr ?ctrl, exec_write_congr ?status, exec_write_congr ?crcCtrl, exec_write_congr ?crcAcc,
    fun o => exec_write_congr ?reserved, fun off => ?read, assemble_wrStatus d, fun i => ?assembled⟩
  case ctrl => exact congrArg (ctrlWrite · s) (cmdField_and_mask d).symm
  case status => exact (clearFlags_and_mask d s).symm
  case crcCtrl =>
    exact congrArg (fun init : Bool => if init then setCrcAcc crcSeed s else s) (initField_and rfl d).symm
  case crcAcc => rfl
  case reserved => rw [windowWrite_rsvOffset, windowWrite_rsvOffset]
  case read => rw [decode_read, decode_read]
  case assembled =>
    rw [decode_assemble]
    exact ⟨wellFormed_clearIgnored i, exec_clearIgnored i s⟩

end IgnoredBits

/-! ### The byte access on the host's bus (R71) -/

theorem takeBusAccess_byte {a : BusAccess} (h : a.touchesWindow = true) (hw : a.width = 1) (s : State) :
    takeBusAccess a s = takeAccess a.word s := by
  simp [takeBusAccess, h, hw]

theorem touchesWindow_offset (isWrite : Bool) (off : Offset) (d : Byte) :
    BusAccess.touchesWindow ⟨isWrite, Config.base + off.toNat, 1, d⟩ = true := by
  have hoff : off.toNat < 8 := off.isLt
  rw [touchesWindow_iff]
  constructor <;> dsimp only <;> omega

/-- The access word of a byte access carries no byte where it reads, which the decoder does not notice. -/
theorem decode_word_offset (isWrite : Bool) (off : Offset) (d : Byte) :
    decode (BusAccess.word ⟨isWrite, Config.base + off.toNat, 1, d⟩) = decode (accessWord isWrite off d) := by
  have hoff : BitVec.ofNat 3 (Config.base + off.toNat - Config.base) = off := by
    rw [Nat.add_sub_cancel_left, BitVec.ofNat_toNat, BitVec.setWidth_eq]
  dsimp only [BusAccess.word]
  rw [hoff]
  cases isWrite with
  | false => rw [decode_read, decode_read]
  | true => rfl

/-- Settles O12: the access lies in the window and is one byte wide, so it is taken by its access word
(`takeBusAccess_byte`), which the decoder reads as the host's (`decode_word_offset`). -/
theorem byteAccessIsItsAccessWord : Obligations.ByteAccessIsItsAccessWord := by
  intro s rest isWrite off d
  rw [step_cons rfl, step_cons rfl]
  calc takeBusAccess ⟨isWrite, Config.base + off.toNat, 1, d⟩ _
      = takeAccess (BusAccess.word ⟨isWrite, Config.base + off.toNat, 1, d⟩) _ :=
        takeBusAccess_byte (touchesWindow_offset isWrite off d) rfl _
    _ = takeAccess (accessWord isWrite off d) _ := congrArg (exec · _) (decode_word_offset isWrite off d)

end Sys2Proof.Machine
end

section
/-! The family 40_bus_commands.md: the commands by their words, acceptance and completion (R100 to R108), the
answers and bytes that do not steer the engine (R110, R111), and a phase in flight (R104, R109, R112). -/

namespace Sys2Proof.Machine

variable {s t u : State} {i : Instr} {c : Code}

/-! ### The words of the command rows (30_encoding.md R73) -/

theorem accessWord_inj {b b' : Bool} {off off' : Offset} {d d' : Byte} :
    accessWord b off d = accessWord b' off' d' ↔ b = b' ∧ off = off' ∧ d = d' := by
  refine ⟨fun h => ⟨?_, ?_, ?_⟩, by rintro ⟨rfl, rfl, rfl⟩; rfl⟩
  · simpa using congrArg wField h
  · simpa using congrArg offField h
  · simpa using congrArg dField h

/-- A CTRL write decodes as the same write with 0 in its ignored bits. -/
theorem decode_of_ctrl_word {w : AccessWord} {d : Byte} (h : w &&& 0xF07#12 = accessWord true 0x0#3 d) :
    decode w = decodeCtrl d := by
  obtain ⟨b, off, e, rfl⟩ := exists_accessWord w
  have hmask : accessWord b off e &&& 0xF07#12 = accessWord b off (e &&& 0x07#8) :=
    accessWord_and_byte b off e 0x07#8
  obtain ⟨rfl, rfl, rfl⟩ := accessWord_inj.mp (hmask.symm.trans h)
  exact (decode_write 0x0#3 e).trans (decodeCtrl_and_mask e).symm

/-- The one bit of a reserved command's word that is neither fixed nor ignored is its low bit. -/
theorem decode_of_reserved_word {w : AccessWord} (h : w &&& 0xF06#12 = 0x806#12) :
    decode w = .cmdRsv (w.extractLsb' 0 1) := by
  have hlow : w.extractLsb' 0 1 = BitVec.ofBool (w.getLsbD 0) := by
    ext k hk
    obtain rfl : k = 0 := by omega
    simp
  have hword : w &&& 0xF07#12 = 0x806#12 ||| (BitVec.ofBool (w.getLsbD 0)).setWidth 12 := by
    rw [← h, ← BitVec.and_one_eq_setWidth_ofBool_getLsbD, ← BitVec.and_or_distrib_left]
    rfl
  rw [hlow]
  cases hb : w.getLsbD 0 with
  | false => exact decode_of_ctrl_word (d := 0x06#8) (by rw [hword, hb]; rfl)
  | true => exact decode_of_ctrl_word (d := 0x07#8) (by rw [hword, hb]; rfl)

/-! ### Every CTRL write (R100) -/

theorem reservedCode_iff : reservedCode c = true ↔ c = 0b110#3 ∨ c = 0b111#3 := by
  simp [reservedCode]

theorem needsOpen_iff : needsOpen c = true ↔ c = 0b010#3 ∨ c = 0b011#3 ∨ c = 0b100#3 ∨ c = 0b101#3 := by
  simp [needsOpen, or_assoc]

/-- The procedure of R100 with its tests written out. -/
theorem ctrlWrite_eq_ite (c : Code) (s : State) : ctrlWrite c s =
    if s.busy = true then collide s
    else if c = 0b000#3 then s
    else if c = 0b110#3 ∨ c = 0b111#3 then reject s
    else if (c = 0b010#3 ∨ c = 0b011#3 ∨ c = 0b100#3 ∨ c = 0b101#3) ∧ s.opened = false then reject s
    else accept c s := by
  simp only [ctrlWrite, reservedCode_iff, needsOpen_iff, Bool.and_eq_true, Bool.not_eq_true']

/-- Settles O14: a byte written to CTRL is R100's procedure on its low three bits (`exec_decodeWrite`). -/
theorem ctrlWriteProcedure : Obligations.CtrlWriteProcedure := by
  intro v s
  rw [decode_write, exec_decodeWrite]
  exact congrArg _ (ctrlWrite_eq_ite (cmdField v) s)

/-! ### What each command row does at its acceptance (R101 to R107) -/

theorem exec_accepts (hi : ctrlCode i = some c) (hb : s.busy = false) (hc : acceptable c s) :
    exec i s = .next (accept c s) := by
  rw [exec_of_ctrlCode hi, ctrlWrite_accept hb hc]

theorem exec_ctrl_collides (hi : ctrlCode i = some c) (hb : s.busy = true) : exec i s = .next (collide s) :=
  exec_collides hb (writesCtrlOrData_iff.mpr (.inl ⟨c, hi⟩))

/-- With a transaction open every code that names a phase is accepted (R75, R100). -/
theorem acceptable_of_opened (hc : kind c ≠ .none) (ho : s.opened = true) : acceptable c s := by
  obtain ⟨hnop, hrsv⟩ : c ≠ 0b000#3 ∧ reservedCode c = false := by revert c; decide
  exact ⟨hnop, hrsv, fun _ => ho⟩

theorem kind_ne_none_of_needsOpen (hn : needsOpen c = true) : kind c ≠ .none := by
  revert c; decide

/-- START is accepted whether a transaction is open or not (R102). -/
theorem acceptable_start (s : State) : acceptable 0b001#3 s :=
  ⟨by decide, by decide, fun h => absurd h (by decide)⟩

/-- A row whose code needs an open transaction: accepted with one, rejected without, ignored while busy. -/
theorem exec_of_needsOpen (hi : ctrlCode i = some c) (hn : needsOpen c = true) :
    (∀ s : State, s.busy = false → s.opened = true → exec i s = .next (accept c s)) ∧
    (∀ s : State, s.busy = false → s.opened = false → exec i s = .next (reject s)) ∧
    ∀ s : State, s.busy = true → exec i s = .next (collide s) := by
  refine ⟨fun s hb ho => exec_accepts hi hb (acceptable_of_opened (kind_ne_none_of_needsOpen hn) ho),
    fun s hb ho => ?_, fun s => exec_ctrl_collides hi⟩
  rw [exec_of_ctrlCode hi, ctrlWrite_closed hb hn ho]

/-! ### What each phase does at its completion (R108) -/

theorem step_engine {d : Draw} (h : nextTurn s = engineTurn d) : step s = .next (complete d (turnTaken s)) := by
  rw [step, h]; rfl

theorem complete_start (h : s.phase = .start) (d : Draw) : complete d s = finish (completeStart s) := by
  simp [complete, h]
theorem complete_stop (h : s.phase = .stop) (d : Draw) : complete d s = finish (completeStop s) := by
  simp [complete, h]
theorem complete_write (h : s.phase = .write) (d : Draw) : complete d s = finish (completeWrite d.ack s) := by
  simp [complete, h]
theorem complete_readAck (h : s.phase = .readAck) (d : Draw) :
    complete d s = finish (completeRead d.byte .ack s) := by
  simp [complete, h]
theorem complete_readNack (h : s.phase = .readNack) (d : Draw) :
    complete d s = finish (completeRead d.byte .nack s) := by
  simp [complete, h]

/-- A phase in flight ends with one event, whatever the state, and returns no byte to the host. -/
theorem complete_appends_one (d : Draw) (hp : s.phase ≠ .none) :
    (∃ e, (complete d s).hist = s.hist ++ [e]) ∧ (complete d s).reads = s.reads := by
  obtain ⟨hk, h⟩ | ⟨_, h⟩ | ⟨_, h⟩ | ⟨_, h⟩ | ⟨_, h⟩ | ⟨_, h⟩ := complete_cases d s
  · exact absurd hk hp
  all_goals
    rw [h]
    exact ⟨⟨_, rfl⟩, rfl⟩

/-- Settles O23: `complete_appends_one`, the common end of R108 (`complete_ends`), and the frame
(`complete_frame`). -/
theorem completionEndsThePhase : Obligations.CompletionEndsThePhase := by
  intro s d h
  rw [step_engine h]
  refine ⟨fun hp => ?_, fun hp => ?_⟩
  · rw [complete_of_no_phase (s := turnTaken s) hp]; rfl
  · obtain ⟨⟨e, he⟩, hreads⟩ := complete_appends_one (s := turnTaken s) d hp
    obtain ⟨hphase, hbusy, hdone⟩ := complete_ends (s := turnTaken s) d hp
    obtain ⟨hcmd, herr, hwcol, hcrc⟩ := complete_frame d (turnTaken s)
    exact ⟨_, e, rfl, he, hphase, hbusy, hdone, hcmd, herr, hwcol, hcrc, hreads⟩

/-! ### The statements on the single commands (R101 to R107, R110) -/

/-- Settles O15: a CTRL write of code 0, which R100 tests after BUSY (`ctrlWrite_nop`). -/
theorem nopRule : Obligations.NopRule :=
  ⟨fun _ h => decode_of_ctrl_word (d := 0x00#8) h, fun s hb => by rw [exec_nop, ctrlWrite_nop hb],
    fun _ => exec_ctrl_collides (i := .nop) rfl⟩

/-- Settles O17: START needs no open transaction (`acceptable_start`), and OPEN picks its event
(`complete_start`). -/
theorem startRule : Obligations.StartRule := by
  refine ⟨fun _ h => decode_of_ctrl_word (d := 0x01#8) h,
    fun s hb => exec_accepts (i := .start) rfl hb (acceptable_start s),
    fun _ => exec_ctrl_collides (i := .start) rfl, fun s d h hp => ?_⟩
  rw [step_engine h, complete_start (s := turnTaken s) hp]
  rfl

/-- Settles O18: `exec_of_needsOpen` and `complete_stop`. -/
theorem stopRule : Obligations.StopRule := by
  obtain ⟨haccept, hreject, hcollide⟩ := exec_of_needsOpen (i := .stop) rfl (by decide)
  refine ⟨fun _ h => decode_of_ctrl_word (d := 0x02#8) h, haccept, hreject, hcollide, fun s d h hp => ?_⟩
  rw [step_engine h, complete_stop (s := turnTaken s) hp]
  rfl

/-- Settles O19: `exec_of_needsOpen` and `complete_write`. -/
theorem writeRule : Obligations.WriteRule := by
  obtain ⟨haccept, hreject, hcollide⟩ := exec_of_needsOpen (i := .write) rfl (by decide)
  refine ⟨fun _ h => decode_of_ctrl_word (d := 0x03#8) h, haccept, hreject, hcollide, fun s d h hp => ?_⟩
  rw [step_engine h, complete_write (s := turnTaken s) hp]
  rfl

/-- Settles O20: `exec_of_needsOpen` and `complete_readAck`. -/
theorem readAckRule : Obligations.ReadAckRule := by
  obtain ⟨haccept, hreject, hcollide⟩ := exec_of_needsOpen (i := .readAck) rfl (by decide)
  refine ⟨fun _ h => decode_of_ctrl_word (d := 0x04#8) h, haccept, hreject, hcollide, fun s d h hp => ?_⟩
  rw [step_engine h, complete_readAck (s := turnTaken s) hp]
  rfl

/-- Settles O21: `exec_of_needsOpen` and `complete_readNack`. -/
theorem readNackRule : Obligations.ReadNackRule := by
  obtain ⟨haccept, hreject, hcollide⟩ := exec_of_needsOpen (i := .readNack) rfl (by decide)
  refine ⟨fun _ h => decode_of_ctrl_word (d := 0x05#8) h, haccept, hreject, hcollide, fun s d h hp => ?_⟩
  rw [step_engine h, complete_readNack (s := turnTaken s) hp]
  rfl

theorem reservedCode_rsvCode (r : BitVec 1) : reservedCode (rsvCode r) = true := by
  revert r; decide

/-- Settles O22: both codes that the row stands for are reserved (`reservedCode_rsvCode`). -/
theorem reservedCommandRule : Obligations.ReservedCommandRule := by
  refine ⟨fun _ => decode_of_reserved_word, fun r s hb => ?_, fun r _ => exec_ctrl_collides (i := .cmdRsv r) rfl⟩
  rw [exec_cmdRsv, ctrlWrite_reserved hb (reservedCode_rsvCode r)]
  rfl

/-- Settles O24: the completion leaves OPEN as it was, so every code that names a phase is acceptable
(`acceptable_of_opened`). -/
theorem nackLeavesTransactionOpen : Obligations.NackLeavesTransactionOpen := by
  intro s d h hp ho hnack
  have hstep : step s = .next (finish (completeWrite .nack (turnTaken s))) := by
    rw [step_engine h, complete_write (s := turnTaken s) hp, hnack]
  have hmode : (finish (completeWrite .nack (turnTaken s))).mode = .held := by
    rw [mode_of_no_phase rfl]; simp [ho]
  refine ⟨_, hstep, rfl, hmode, rfl, fun i c hmem => ?_⟩
  have hrow : ∀ p ∈ [(Instr.start, 0b001#3), (.stop, 0b010#3), (.write, 0b011#3), (.readAck, 0b100#3),
      (.readNack, 0b101#3)], ctrlCode p.1 = some p.2 ∧ kind p.2 ≠ .none := by decide
  obtain ⟨hi, hk⟩ := hrow _ hmem
  exact exec_accepts hi rfl (acceptable_of_opened hk ho)

/-! ### The control state is a function of itself (R111) -/

/-- What a completion makes of the control state with a phase in flight: no byte, no answer. -/
def Control.completed (k : Control) : Control :=
  { k with
    opened := if k.phase = .start then true else if k.phase = .stop then false else k.opened
    phase := .none, busy := false, done := true }

theorem complete_control (d : Draw) (hp : s.phase ≠ .none) : (complete d s).control = s.control.completed := by
  obtain ⟨hk, h⟩ | ⟨hk, h⟩ | ⟨hk, h⟩ | ⟨hk, h⟩ | ⟨hk, h⟩ | ⟨hk, h⟩ := complete_cases d s
  · exact absurd hk hp
  all_goals
    rw [h]
    simp [State.control, Control.completed, hk]

theorem complete_control_congr (d d' : Draw) (h : s.control = t.control) :
    (complete d s).control = (complete d' t).control := by
  have hphase : s.phase = t.phase := congrArg Control.phase h
  by_cases hp : t.phase = .none
  · rwa [complete_of_no_phase (hphase.trans hp), complete_of_no_phase hp]
  · rw [complete_control d (hphase ▸ hp), complete_control d' hp, h]

theorem collide_control (s : State) : (collide s).control = { s.control with wcol := true } := rfl
theorem reject_control (s : State) : (reject s).control = { s.control with err := true, done := true } := rfl
theorem accept_control (c : Code) (s : State) :
    (accept c s).control = { s.control with cmd := c, phase := kind c, busy := true, done := false } := rfl
theorem clearFlags_control (b : Byte) (s : State) : (clearFlags b s).control =
    { s.control with err := s.control.err && !clearsErr b, wcol := s.control.wcol && !clearsWcol b } := rfl

/-- The tests of R100 look at the code, BUSY and OPEN. -/
theorem ctrlWrite_control_congr (c : Code) (h : s.control = t.control) :
    (ctrlWrite c s).control = (ctrlWrite c t).control := by
  have hbusy : s.busy = t.busy := congrArg Control.busy h
  have hopened : s.opened = t.opened := congrArg Control.opened h
  simp only [ctrlWrite, hbusy, hopened, apply_ite State.control, collide_control, reject_control,
    accept_control, h]

theorem dataWrite_control_congr (b : Byte) (h : s.control = t.control) :
    (dataWrite b s).control = (dataWrite b t).control := by
  have hbusy : s.busy = t.busy := congrArg Control.busy h
  cases hb : t.busy with
  | true => rw [dataWrite_busy (hbusy.trans hb), dataWrite_busy hb, collide_control, collide_control, h]
  | false => rw [dataWrite_free (hbusy.trans hb), dataWrite_free hb]; exact h

theorem exec_control_congr {s' t' : State} (h : s.control = t.control) (hs : exec i s = .next s')
    (ht : exec i t = .next t') : s'.control = t'.control := by
  cases exec_row hs with
  | @ctrl _ c hi =>
    rw [exec_of_ctrlCode hi] at ht
    cases ht
    exact ctrlWrite_control_congr c h
  | status b =>
    cases ht
    rw [clearFlags_control, clearFlags_control, h]
  | data b =>
    cases ht
    exact dataWrite_control_congr b h
  | read v hi =>
    obtain ⟨hanswers, _⟩ := readsHaveNoSideEffect
    obtain ⟨v', hread⟩ := hanswers i t hi
    rw [hread] at ht
    cases ht
    exact h
  | _ => cases ht; exact h

/-- Settles O25: equal control states stay equal at each row (`exec_control_congr`), and a completion is a
function of the control state (`complete_control`). -/
theorem bytesDoNotSteerTheEngine : Obligations.BytesDoNotSteerTheEngine :=
  ⟨fun _ _ _ _ _ => exec_control_congr, fun d₁ d₂ _ _ => complete_control_congr d₁ d₂⟩

/-! ### Polls (30_encoding.md R81) -/

theorem step_access {rest : List Turn} (h : s.agenda = accessTurn (encode i) :: rest) :
    step s = exec i { s with agenda := rest, steps := s.steps + 1 } :=
  (step_cons h).trans (congrArg (exec · _) (decodeOfEncodeIsIdentity i))

/-- A poll to which no other turn comes in between reads one status byte at every turn. -/
theorem runSteps_poll {n : Nat} {rest : List Turn} (h : s.agenda = accesses (poll n) ++ rest) :
    runSteps n s = .next { s with
      reads := s.reads ++ List.replicate n (statusByte s), agenda := rest, steps := s.steps + n } := by
  induction n generalizing s with
  | zero =>
    obtain rfl : s.agenda = rest := h
    simp
  | succ n ih =>
    have hread : step s = .next { s with
        reads := s.reads ++ [statusByte s], agenda := accesses (poll n) ++ rest, steps := s.steps + 1 } :=
      step_access (i := .rdStatus) h
    rw [runSteps_succ hread, ih rfl, List.append_assoc, Nat.add_assoc, Nat.add_comm 1 n]
    rfl

/-- Settles O16: the NOP leaves the block as it was, and so the poll shows its flags (`runSteps_poll`). -/
theorem pollAfterNopShowsOldDone : Obligations.PollAfterNopShowsOldDone := by
  intro s n rest hb h
  obtain ⟨hdone, _⟩ := statusByte_bits s
  have hnop : step s = .next { s with agenda := accesses (poll n) ++ rest, steps := s.steps + 1 } := by
    rw [step_access (i := .nop) h, exec_nop]
    exact congrArg _ (ctrlWrite_nop hb)
  refine ⟨statusByte s, hdone, ?_⟩
  rw [runSteps_succ hnop, runSteps_poll rfl, Nat.add_assoc, Nat.add_comm 1 n]
  rfl

/-! ### A phase in flight (R109, R112) -/

/-- The two states agree on all that R112 protects. -/
structure Undisturbed (s t : State) : Prop where
  phase : t.phase = s.phase
  data : t.data = s.data
  cmd : t.cmd = s.cmd
  opened : t.opened = s.opened
  nack : t.nack = s.nack
  busy : t.busy = s.busy
  done : t.done = s.done
  hist : t.hist = s.hist

theorem undisturbed_world (s : State) (a : List Turn) (n : Nat) :
    Undisturbed s { s with agenda := a, steps := n } := ⟨rfl, rfl, rfl, rfl, rfl, rfl, rfl, rfl⟩

theorem Undisturbed.refl (s : State) : Undisturbed s s := undisturbed_world s s.agenda s.steps

theorem Undisturbed.trans (h : Undisturbed s t) (h' : Undisturbed t u) : Undisturbed s u where
  phase := h'.phase.trans h.phase
  data := h'.data.trans h.data
  cmd := h'.cmd.trans h.cmd
  opened := h'.opened.trans h.opened
  nack := h'.nack.trans h.nack
  busy := h'.busy.trans h.busy
  done := h'.done.trans h.done
  hist := h'.hist.trans h.hist

/-- The effects of a host access that reach a protected register are for an engine that is not busy. -/
theorem HostEffect.undisturbed (h : HostEffect s t) (hb : s.busy = true) : Undisturbed s t := by
  have hfree : s.busy ≠ false := by simp [hb]
  cases h with
  | rejects hf => exact absurd hf hfree
  | accepts _ hf _ => exact absurd hf hfree
  | loads _ hf => exact absurd hf hfree
  | _ => exact ⟨rfl, rfl, rfl, rfl, rfl, rfl, rfl, rfl⟩

theorem takeTurn_undisturbed {τ : Turn} (hb : s.busy = true) (hτ : τ.endsPhase = false)
    (h : takeTurn τ s = .next t) : Undisturbed s t := by
  obtain ⟨hr, _⟩ | ⟨d, rfl, _⟩ | ⟨_, _, rfl⟩ | ⟨_, _, w, _, hw⟩ := takeTurn_cases h
  · simp [Turn.endsPhase, hr] at hτ
  · cases hτ
  · exact .refl _
  · exact (exec_effect hw).undisturbed hb

/-- Settles O51, by the effects that a host access has while busy (`HostEffect.undisturbed`). -/
theorem phaseInFlightIsUndisturbed : Obligations.PhaseInFlightIsUndisturbed := by
  intro s t hb hτ h
  obtain ⟨hphase, hdata, hcmd, hopened, hnack, hbusy, hdone, hhist⟩ :=
    takeTurn_undisturbed (s := turnTaken s) hb hτ h
  exact ⟨hphase, hdata, hcmd, hopened, hnack, hbusy, hdone, hhist⟩

theorem isHostOrIdle_cases {τ : Turn} (h : τ.isHostOrIdle = true) : (∃ w, τ = accessTurn w) ∨ τ = idleTurn := by
  obtain ⟨_ | _, _ | _ | _ | _⟩ := τ <;> cases h
  · exact .inl ⟨_, rfl⟩
  · exact .inr rfl

/-- A host access by its word or an idle turn has a next state, and it disturbs no phase in flight. -/
theorem exists_takeTurn_undisturbed {τ : Turn} (hτ : τ.isHostOrIdle = true) (hb : s.busy = true) :
    ∃ t, takeTurn τ s = .next t ∧ Undisturbed s t := by
  obtain ⟨w, rfl⟩ | rfl := isHostOrIdle_cases hτ
  · obtain ⟨t, ht⟩ := everyByteAccessCompletes (decode w) s
    exact ⟨t, ht, takeTurn_undisturbed (τ := accessTurn w) hb rfl ht⟩
  · exact ⟨s, rfl, takeTurn_undisturbed (τ := idleTurn) hb rfl rfl⟩

/-- For as long as only the host and idle turns come, the phase in flight stays. -/
theorem runSteps_undisturbed {ts rest : List Turn} (hb : s.busy = true)
    (hts : ts.all Turn.isHostOrIdle = true) (h : s.agenda = ts ++ rest) :
    ∃ t, runSteps ts.length s = .next t ∧ Undisturbed s t ∧ t.agenda = rest := by
  induction ts generalizing s with
  | nil => exact ⟨s, rfl, .refl s, h⟩
  | cons τ ts ih =>
    obtain ⟨hτ, hts⟩ := Bool.and_eq_true_iff.mp hts
    obtain ⟨t, ht, hsame⟩ :=
      exists_takeTurn_undisturbed (s := { s with agenda := ts ++ rest, steps := s.steps + 1 }) hτ hb
    obtain ⟨hagenda, _⟩ := takeTurn_world ht
    obtain ⟨u, hu, hsame', hrest⟩ := ih (hsame.busy.trans hb) hts hagenda
    have hstep : step s = .next t := (step_cons h).trans ht
    exact ⟨u, (runSteps_succ hstep).trans hu, ((undisturbed_world s _ _).trans hsame).trans hsame', hrest⟩

/-- Settles O52: the whole agenda is such a run (`runSteps_undisturbed`). -/
theorem noTimeout : Obligations.NoTimeout := by
  intro s hb hd hts
  obtain ⟨t, ht, hsame, _⟩ := runSteps_undisturbed hb hts (List.append_nil _).symm
  exact ⟨t, ht, hsame.phase, hsame.busy.trans hb, hsame.done.trans hd, hsame.hist⟩

theorem runSteps_one (h : step s = .next t) : runSteps 1 s = .next t := runSteps_succ h

/-- After the engine's turn no phase is in flight, whether one was before it or not. -/
theorem complete_phase (d : Draw) (s : State) : (complete d s).phase = .none := by
  by_cases hp : s.phase = .none
  · rw [complete_of_no_phase hp, hp]
  · exact (complete_ends d hp).1

theorem eq_engineTurn_of_fires {τ : Turn} (h : τ.fires = true) : ∃ d, τ = engineTurn d := by
  obtain ⟨_ | _, _ | _ | d | _⟩ := τ <;> cases h
  exact ⟨d, rfl⟩

/-- Settles O53: the premise at the first point gives a point with no phase in flight, or one at which the
engine's turn comes, and then it is the next point (`complete_phase`). -/
theorem responsiveBusEndsThePhase : Obligations.ResponsiveBusEndsThePhase := by
  intro s hp hresponsive
  obtain ⟨k, u, hu, hfires | hnone⟩ := hresponsive 0 s rfl hp
  · obtain ⟨d, hd⟩ := eq_engineTurn_of_fires hfires
    refine ⟨k + 1, complete d (turnTaken u), ?_, complete_phase d _⟩
    rw [runSteps_add hu, runSteps_one (step_engine hd)]
  · exact ⟨k, u, hu, hnone⟩

/-- Settles O54: the acceptance leaves DATA, the turns between disturb nothing (`runSteps_undisturbed`), and
the completion sends DATA (`complete_write`). -/
theorem writeSendsDataHeldAtAcceptance : Obligations.WriteSendsDataHeldAtAcceptance := by
  intro s between rest d hb ho hbetween h
  have haccept : step s = .next (accept 0b011#3 (turnTaken s)) := by
    rw [stepRunsDecodedAccess s _ (nextTurn_cons h)]
    exact exec_accepts (i := .write) rfl hb (acceptable_of_opened (by decide) ho)
  obtain ⟨t, ht, hsame, hagenda⟩ := runSteps_undisturbed (s := accept 0b011#3 (turnTaken s)) (ts := between)
    (rest := engineTurn d :: rest) rfl hbetween (by simp [h])
  have hcomplete : step t = .next (finish (completeWrite d.ack (turnTaken t))) := by
    rw [step_engine (nextTurn_cons hagenda), complete_write (s := turnTaken t) hsame.phase]
  refine ⟨finish (completeWrite d.ack (turnTaken t)), ?_, ?_, hsame.data, rfl, rfl, rfl, ?_, ?_⟩
  · rw [runSteps_succ haccept, runSteps_add ht, runSteps_one hcomplete]
  · simp [hsame.hist, hsame.data]
  · simp [hsame.opened, ho]
  · simp [hagenda]

end Sys2Proof.Machine
end

section
/-! The family 41_register_access.md: the words of the register accesses, the bytes that the reads return
(R140, R141, R144, R145), the writes of STATUS and DATA (R142, R143), and the writes without effect (R146,
43_crc.md R193, R198). -/

namespace Sys2Proof.Machine

variable {s t : State}

/-! ### The words of the register rows (30_encoding.md R73) -/

/-- A read's row looks at no bit of `D` (R77). -/
theorem decode_of_read_word {w : AccessWord} {off : Offset} (h : w &&& 0xF00#12 = accessWord false off 0x00#8) :
    decode w = decodeRead off := by
  obtain ⟨b, o, d, rfl⟩ := exists_accessWord w
  have hmask : accessWord b o d &&& 0xF00#12 = accessWord b o (d &&& 0x00#8) := accessWord_and_byte b o d 0x00#8
  obtain ⟨rfl, rfl, _⟩ := accessWord_inj.mp (hmask.symm.trans h)
  exact decode_read o d

/-- Of a CRC_CTRL write's byte the row looks at `INIT` alone. -/
theorem decode_of_crcCtrl_word {w : AccessWord} {d : Byte} (h : w &&& 0xF01#12 = accessWord true 0x4#3 d) :
    decode w = if initField d then .crcInit else .crcCtrlNop := by
  obtain ⟨b, o, e, rfl⟩ := exists_accessWord w
  have hmask : accessWord b o e &&& 0xF01#12 = accessWord b o (e &&& 0x01#8) := accessWord_and_byte b o e 0x01#8
  obtain ⟨rfl, rfl, rfl⟩ := accessWord_inj.mp (hmask.symm.trans h)
  rw [decode_write, decodeWrite_crcCtrl, initField_and rfl]

theorem oField_offField (w : AccessWord) : oField (offField w) = w.extractLsb' 10 1 := by
  ext k hk
  obtain rfl : k = 0 := by omega
  simp [oField, offField]

/-- The words of the reserved offsets 0x3 and 0x7: `o`, bit 10, is the one bit of `OFF` that is not fixed. -/
theorem eq_of_reserved_offset_word {w : AccessWord} {b : Bool}
    (h : w &&& 0xB00#12 = accessWord b 0x3#3 0x00#8) :
    w = accessWord b (rsvOffset (w.extractLsb' 10 1)) (dField w) := by
  have hmask : accessWord (wField w) (offField w) (dField w) &&& accessWord true 0x3#3 0x00#8 =
      accessWord b 0x3#3 0x00#8 := by
    rw [accessWord_fields]; exact h
  rw [accessWord_and, Bool.and_true] at hmask
  obtain ⟨hw, hoff, _⟩ := accessWord_inj.mp hmask
  have hrsv : ∀ off : Offset, off &&& 0x3#3 = 0x3#3 → rsvOffset (oField off) = off := by decide
  rw [← oField_offField, hrsv _ hoff, ← hw, accessWord_fields]

theorem decode_of_reserved_read_word {w : AccessWord} (h : w &&& 0xB00#12 = 0x300#12) :
    decode w = .rdRsv (w.extractLsb' 10 1) := by
  calc decode w
      = decode (accessWord false (rsvOffset (w.extractLsb' 10 1)) (dField w)) :=
        congrArg decode (eq_of_reserved_offset_word h)
    _ = .rdRsv (w.extractLsb' 10 1) := (decode_read _ _).trans (decodeRead_rsvOffset _)

theorem decode_of_reserved_write_word {w : AccessWord} (h : w &&& 0xB00#12 = 0xB00#12) :
    decode w = .wrRsv (w.extractLsb' 10 1) (dField w) := by
  calc decode w
      = decode (accessWord true (rsvOffset (w.extractLsb' 10 1)) (dField w)) :=
        congrArg decode (eq_of_reserved_offset_word h)
    _ = .wrRsv (w.extractLsb' 10 1) (dField w) := (decode_write _ _).trans (decodeWrite_rsvOffset _ _)

/-! ### What CTRL and STATUS read as (10_state.md R21, R28) -/

theorem ctrlByte_eq_append (s : State) : ctrlByte s = 0b00000#5 ++ s.cmd := by
  rw [ctrlByte]
  generalize s.cmd = c
  revert c
  decide

/-- The command code in the byte that CTRL reads as is CTRL.CMD. -/
theorem cmdField_ctrlByte (s : State) : cmdField (ctrlByte s) = s.cmd := by
  rw [ctrlByte_eq_append, cmdField]
  exact BitVec.extractLsb'_append_eq_right

/-- A host access that leaves BUSY alone leaves CTRL.CMD alone: only an acceptance loads it
(40_bus_commands.md R100). -/
theorem HostEffect.cmd_of_busy (h : HostEffect s t) (hb : t.busy = s.busy) : t.cmd = s.cmd := by
  obtain hsame | ⟨_, rfl⟩ | ⟨hfree, c, _, rfl⟩ := h.on_engine
  · exact hsame.cmd
  · rfl
  · exact absurd (hb.trans hfree) (by simp)

theorem statusByte_high_bits (s : State) :
    (statusByte s).getLsbD 6 = false ∧ (statusByte s).getLsbD 7 = false := by
  simp only [statusByte, BitVec.getLsbD_append]
  exact ⟨rfl, rfl⟩

theorem statusByte_resetBlock (s : State) : statusByte (resetBlock s) = 0x00#8 := by
  simp only [statusByte, resetBlock_wcol, resetBlock_err, resetBlock_nack, resetBlock_opened, resetBlock_busy,
    resetBlock_done]
  rfl

/-! ### Write 1 to clear (R142) -/

/-- A flag goes to 0 where its bit of the written byte is 1, and else stays. -/
theorem clearFlags_eq_ite (d : Byte) (s : State) : clearFlags d s =
    { s with
      err := if d.getLsbD 4 = true then false else s.err
      wcol := if d.getLsbD 5 = true then false else s.wcol } := by
  simp only [clearFlags, clearsErr, clearsWcol, Bool.if_false_left, Bool.decide_eq_true, Bool.and_comm]

/-! ### The statements on the single rows (R140 to R146, 43_crc.md R193 to R198) -/

/-- Settles O26: the bits of CTRL (`ctrlByte_eq_append`, `cmdField_ctrlByte`), and the one effect of a host
access that loads CTRL.CMD (`HostEffect.cmd_of_busy`). -/
theorem rdCtrlReturnsCommand : Obligations.RdCtrlReturnsCommand := by
  refine ⟨fun w h => decode_of_read_word (off := 0x0#3) h, fun s => ?returns, fun _ => rfl,
    fun s hnames hp => ?inFlight, fun d s t h hb => ?startsNoPhase⟩
  case returns => rw [exec_rdCtrl, ctrlByte_eq_append]; rfl
  case inFlight => exact (congrArg kind (cmdField_ctrlByte s)).trans (hnames hp)
  case startsNoPhase => rw [ctrlByte, ctrlByte, (exec_effect h).cmd_of_busy hb]

/-- Settles O27: each bit of STATUS (`statusByte_bits`, `statusByte_high_bits`). In a consistent state a phase
in flight is BUSY, and then not DONE (10_state.md R35). -/
theorem rdStatusReturnsFlags : Obligations.RdStatusReturnsFlags := by
  refine ⟨fun w h => decode_of_read_word (off := 0x1#3) h, fun s => ?reset, fun s => ?bits⟩
  case reset => rw [exec_rdStatus, statusByte_resetBlock]; rfl
  case bits =>
    obtain ⟨hdone, hbusy, hopened, hnack, herr, hwcol⟩ := statusByte_bits s
    obtain ⟨hsix, hseven⟩ := statusByte_high_bits s
    refine ⟨statusByte s, exec_rdStatus s, hdone, hbusy, hopened, hnack, herr, hwcol, hsix, hseven,
      fun hs hp => ?_⟩
    have hb : s.busy = true := hs.busy_iff.mpr hp
    exact ⟨hdone.trans (hs.busy_not_done hb), hbusy.trans hb⟩

/-- Settles O28: `clearFlags_eq_ite`, whatever BUSY is. -/
theorem wrStatusClearsWrittenOnes : Obligations.WrStatusClearsWrittenOnes :=
  ⟨decode_write 0x1#3, fun d s => (exec_wrStatus s d).trans (congrArg _ (clearFlags_eq_ite d s))⟩

/-- Settles O29, by BUSY (`dataWrite_free`, `dataWrite_busy`). -/
theorem wrDataLoadsOrCollides : Obligations.WrDataLoadsOrCollides := by
  refine ⟨decode_write 0x2#3, fun d s hb => ?free, fun d s hb => ?busy⟩
  case free => rw [exec_wrData, dataWrite_free hb]
  case busy => rw [exec_wrData, dataWrite_busy hb]; rfl

/-- Settles O30, by BUSY (`dataByte_free`, `dataByte_busy`). -/
theorem rdDataReturnsDataWhenNotBusy : Obligations.RdDataReturnsDataWhenNotBusy := by
  refine ⟨fun w h => decode_of_read_word (off := 0x2#3) h, fun s hb => ?free, fun s hb => ?busy⟩
  case free => rw [exec_rdData, dataByte_free hb]; rfl
  case busy => rw [exec_rdData, dataByte_busy hb]; rfl

/-- Settles O31: the three rows answer 0x00 whatever the state is. -/
theorem zeroReads : Obligations.ZeroReads :=
  ⟨fun _ => decode_of_reserved_read_word, fun _ h => decode_of_read_word (off := 0x4#3) h,
    fun _ h => decode_of_read_word (off := 0x5#3) h, fun o s => exec_rdRsv s o,
    exec_rdCrcCtrl, exec_rdCrcData⟩

/-- Settles O32: the three rows answer the state they are given. -/
theorem writesWithoutEffect : Obligations.WritesWithoutEffect :=
  ⟨fun _ => decode_of_reserved_write_word, fun _ h => decode_of_crcCtrl_word (d := 0x00#8) h,
    decode_write 0x6#3, fun o d s => exec_wrRsv s o d, exec_crcCtrlNop, fun d s => exec_wrCrcAcc s d⟩

end Sys2Proof.Machine
end

section
/-! The family 42_transport_primitives.md: where a script of turns leads, the poll (R171), what each primitive
leaves where its phase is legal and where it is rejected (R172 to R176), and a transaction's history (R181). -/

namespace Sys2Proof.Machine

variable {s t u : State} {ts ts' rest : List Turn} {i : Instr} {c : Code} {p : Primitive}

/-! ### Where a script of turns leads -/

/-- The turns `ts`, next on the agenda, lead the block from `s` to `t`, whatever is scripted after them and
however many steps came before. -/
def Leads (ts : List Turn) (s t : State) : Prop :=
  ∀ (rest : List Turn) (n : Nat), runSteps ts.length { s with agenda := ts ++ rest, steps := n } =
    .next { t with agenda := rest, steps := n + ts.length }

theorem Leads.run (h : Leads ts s t) (hs : s.agenda = ts ++ rest) :
    runSteps ts.length s = .next { t with agenda := rest, steps := s.steps + ts.length } := by
  have hrun := h rest s.steps
  rwa [← hs] at hrun

theorem Leads.append (h : Leads ts s t) (h' : Leads ts' t u) : Leads (ts ++ ts') s u := by
  intro rest n
  rw [List.append_assoc, List.length_append, runSteps_add (h (ts' ++ rest) n), h' rest, Nat.add_assoc]

theorem leads_nil (s : State) : Leads [] s s := fun _ _ => rfl

theorem length_accesses (is : List Instr) : (accesses is).length = is.length := List.length_map _

theorem leads_access
    (h : ∀ a n, exec i { s with agenda := a, steps := n } = .next { t with agenda := a, steps := n }) :
    Leads (accesses [i]) s t := by
  intro rest n
  exact runSteps_one ((step_access rfl).trans (h rest (n + 1)))

theorem ctrlWrite_world (c : Code) (s : State) (a : List Turn) (n : Nat) :
    ctrlWrite c { s with agenda := a, steps := n } = { ctrlWrite c s with agenda := a, steps := n } := by
  unfold ctrlWrite
  split_ifs <;> rfl

theorem leads_ctrl (hi : ctrlCode i = some c) (s : State) : Leads (accesses [i]) s (ctrlWrite c s) :=
  leads_access fun a n => by rw [exec_of_ctrlCode hi, ctrlWrite_world]

theorem leads_wrData (b : Byte) (hb : s.busy = false) : Leads (accesses [.wrData b]) s { s with data := b } :=
  leads_access fun a n => by rw [exec_wrData, dataWrite_free (s := { s with agenda := a, steps := n }) hb]

theorem leads_rdData (hb : s.busy = false) :
    Leads (accesses [.rdData]) s { s with reads := s.reads ++ [s.data] } :=
  leads_access fun a n => by rw [exec_rdData, dataByte_free (s := { s with agenda := a, steps := n }) hb]; rfl

/-- A completion does the same whatever is scripted and however many steps were taken. -/
theorem complete_scripted (d : Draw) (s : State) (a : List Turn) (n : Nat) :
    complete d { s with agenda := a, steps := n } = { complete d s with agenda := a, steps := n } := by
  obtain ⟨_, _, _, _, _, _, _, _, p, _, _, _, _, _⟩ := s
  cases p <;> rfl

theorem leads_engine (d : Draw) (s : State) : Leads [engineTurn d] s (complete d s) := by
  intro rest n
  exact runSteps_one ((step_engine (nextTurn_cons rfl)).trans (congrArg _ (complete_scripted d s rest (n + 1))))

/-! ### The poll (R171) -/

theorem length_accesses_poll (n : Nat) : (accesses (poll n)).length = n := by
  rw [length_accesses, poll, List.length_replicate]

theorem leads_poll (n : Nat) (s : State) :
    Leads (accesses (poll n)) s { s with reads := s.reads ++ List.replicate n (statusByte s) } := by
  intro rest k
  rw [length_accesses_poll]
  exact runSteps_poll (s := { s with agenda := accesses (poll n) ++ rest, steps := k }) rfl

/-- A completion does the same whatever the host has read before. -/
theorem complete_after_reads (d : Draw) (s : State) (r : List Byte) :
    complete d { s with reads := r } = { complete d s with reads := r } := by
  obtain ⟨_, _, _, _, _, _, _, _, p, _, _, _, _, _⟩ := s
  cases p <;> rfl

/-- The reads of a poll that the engine's turn comes into. -/
def polled (n : Nat) (d : Draw) (s : State) : List Byte :=
  List.replicate n (statusByte s) ++ [statusByte (complete d s)]

/-- A poll that the engine's turn comes into shows the flags before it and, at its last read, the flags after
it. -/
theorem leads_poll_completion (n : Nat) (d : Draw) (s : State) :
    Leads (accesses (poll n) ++ ([engineTurn d] ++ accesses (poll 1))) s
      { complete d s with reads := s.reads ++ polled n d s } := by
  have hengine (r : List Byte) : Leads [engineTurn d] { s with reads := r } { complete d s with reads := r } :=
    complete_after_reads d s r ▸ leads_engine d { s with reads := r }
  have hrun := (leads_poll n s).append ((hengine _).append (leads_poll 1 _))
  rwa [List.append_assoc] at hrun

/-- Settles O55: the state where the script leads (`leads_poll_completion`), and bit 0 of the status byte
before and after the completion (`statusByte_bits`, `complete_ends`). -/
theorem pollEndsAtFirstReadAfterCompletion : Obligations.PollEndsAtFirstReadAfterCompletion := by
  intro s n d rest hp hd h
  obtain ⟨hbefore, _⟩ := statusByte_bits s
  obtain ⟨hafter, _⟩ := statusByte_bits (complete d s)
  obtain ⟨_, _, hdone⟩ := complete_ends d hp
  have hrun := (leads_poll_completion n d s).run (rest := rest) (by simpa using h)
  simp only [List.length_append, length_accesses_poll, List.length_singleton] at hrun
  exact ⟨_, statusByte s, statusByte (complete d s), hrun, (List.append_assoc _ _ _).symm, hbefore.trans hd,
    hafter.trans hdone, rfl⟩

/-! ### The parts of a primitive (30_encoding.md R81) -/

/-- The command code of the phase that a primitive requests (30_encoding.md R75). -/
def Primitive.code : Primitive → Code
  | .start => 0b001#3
  | .stop => 0b010#3
  | .writeByte _ => 0b011#3
  | .readByteAck => 0b100#3
  | .readByteNack => 0b101#3

/-- What a primitive does before its command: `writeByte` loads DATA (R174). -/
def Primitive.load : Primitive → State → State
  | .writeByte b, s => { s with data := b }
  | _, s => s

/-- The bytes that a primitive returns where DATA holds `v` after its poll (R175, R176). -/
def Primitive.returned : Primitive → Byte → List Byte
  | .readByteAck, v => [v]
  | .readByteNack, v => [v]
  | _, _ => []

/-- The request is one CTRL write, after the load. -/
theorem leads_request (p : Primitive) (hb : s.busy = false) :
    Leads (accesses p.request) s (ctrlWrite p.code (p.load s)) := by
  cases p with
  | start => exact leads_ctrl rfl s
  | stop => exact leads_ctrl rfl s
  | writeByte b => exact (leads_wrData b hb).append (leads_ctrl rfl _)
  | readByteAck => exact leads_ctrl rfl s
  | readByteNack => exact leads_ctrl rfl s

theorem leads_result (p : Primitive) (hb : s.busy = false) :
    Leads (accesses p.result) s { s with reads := s.reads ++ p.returned s.data } := by
  have hnone : Leads [] s { s with reads := s.reads ++ [] } := by
    rw [List.append_nil]
    exact leads_nil s
  cases p with
  | start => exact hnone
  | stop => exact hnone
  | writeByte b => exact hnone
  | readByteAck => exact leads_rdData hb
  | readByteNack => exact leads_rdData hb

@[simp] theorem load_busy (p : Primitive) (s : State) : (p.load s).busy = s.busy := by cases p <;> rfl
@[simp] theorem load_opened (p : Primitive) (s : State) : (p.load s).opened = s.opened := by cases p <;> rfl
@[simp] theorem load_phase (p : Primitive) (s : State) : (p.load s).phase = s.phase := by cases p <;> rfl
@[simp] theorem load_hist (p : Primitive) (s : State) : (p.load s).hist = s.hist := by cases p <;> rfl
@[simp] theorem load_err (p : Primitive) (s : State) : (p.load s).err = s.err := by cases p <;> rfl
@[simp] theorem load_wcol (p : Primitive) (s : State) : (p.load s).wcol = s.wcol := by cases p <;> rfl
@[simp] theorem load_crcAcc (p : Primitive) (s : State) : (p.load s).crcAcc = s.crcAcc := by cases p <;> rfl
@[simp] theorem load_reads (p : Primitive) (s : State) : (p.load s).reads = s.reads := by cases p <;> rfl

theorem kind_code_ne_none (p : Primitive) : kind p.code ≠ .none := by
  cases p <;> simp [Primitive.code]

/-- Each primitive but `start()` requests a phase that needs an open transaction (R179). -/
theorem needsOpen_code (h : p ≠ .start) : needsOpen p.code = true := by
  cases p with
  | start => exact absurd rfl h
  | _ => rfl

theorem acceptable_code (h : p ≠ .start → s.opened = true) : acceptable p.code s := by
  by_cases hp : p = .start
  · exact hp ▸ acceptable_start s
  · exact acceptable_of_opened (kind_code_ne_none p) (h hp)

/-! ### A primitive that completes (R172 to R176) -/

/-- What a primitive whose phase completes with the answers `d` makes of the block: its load, its acceptance
and its completion. -/
def Primitive.completed (p : Primitive) (d : Draw) (s : State) : State := complete d (accept p.code (p.load s))

theorem completed_ends (p : Primitive) (d : Draw) (s : State) :
    (p.completed d s).phase = .none ∧ (p.completed d s).busy = false ∧ (p.completed d s).done = true :=
  complete_ends d (kind_code_ne_none p)

/-- Where a run of a primitive leads from a mode in which its phase is legal: its bytes come after those of
its poll. -/
theorem leads_primitive (r : PrimitiveRun) (hb : s.busy = false) (ho : r.prim ≠ .start → s.opened = true) :
    ∃ vs : List Byte, Leads r.turns s { r.prim.completed r.draw s with
      reads := vs ++ r.prim.returned (r.prim.completed r.draw s).data } := by
  have hacc : acceptable r.prim.code (r.prim.load s) := acceptable_code fun hp => by simp [ho hp]
  have hrequest := leads_request r.prim hb
  rw [ctrlWrite_accept (by simp [hb]) hacc] at hrequest
  obtain ⟨_, hfree, _⟩ := completed_ends r.prim r.draw s
  have hrun := (hrequest.append (leads_poll_completion r.early r.draw _)).append (leads_result r.prim hfree)
  have hturns : r.turns = accesses r.prim.request ++
      (accesses (poll r.early) ++ ([engineTurn r.draw] ++ accesses (poll 1))) ++ accesses r.prim.result := by
    simp [PrimitiveRun.turns, accesses]
  exact ⟨_, hturns ▸ hrun⟩

theorem completed_frame (p : Primitive) (d : Draw) (s : State) :
    (p.completed d s).err = s.err ∧ (p.completed d s).wcol = s.wcol ∧ (p.completed d s).crcAcc = s.crcAcc := by
  simp [Primitive.completed]

/-- One event: the primitive's own, but for the repeated start (R172). -/
theorem completed_hist (r : PrimitiveRun) (s : State) : (r.prim.completed r.draw s).hist =
    s.hist ++ [if r.prim = .start ∧ s.opened = true then .repStart else r.event] := by
  obtain ⟨p, n, d⟩ := r
  cases p with
  | start =>
    have hstart : (Primitive.start.completed d s).hist = s.hist ++ [if s.opened then .repStart else .start] := rfl
    simp [hstart, PrimitiveRun.event]
  | stop => rfl
  | writeByte b => rfl
  | readByteAck => rfl
  | readByteNack => rfl

theorem completed_opened (d : Draw) (ho : p ≠ .start → s.opened = true) :
    (p.completed d s).opened = decide (p ≠ .stop) := by
  cases p with
  | start => rfl
  | stop => rfl
  | writeByte b => exact ho (by simp)
  | readByteAck => exact ho (by simp)
  | readByteNack => exact ho (by simp)

theorem completed_mode (d : Draw) (ho : p ≠ .start → s.opened = true) :
    (p.completed d s).mode = if p = .stop then .idle else .held := by
  obtain ⟨hp, _⟩ := completed_ends p d s
  rw [mode_of_no_phase hp, completed_opened d ho]
  by_cases hstop : p = .stop <;> simp [hstop]

/-- Settles O56: where the run leads (`leads_primitive`), and the fields of the completed primitive; DATA,
NACK and the byte returned are the completion's (`complete`), phase by phase. -/
theorem primitiveEffects : Obligations.PrimitiveEffects := by
  intro r rest s hp hb ho h
  obtain ⟨vs, hlead⟩ := leads_primitive r hb ho
  obtain ⟨_, hbusy, hdone⟩ := completed_ends r.prim r.draw s
  obtain ⟨herr, hwcol, hcrc⟩ := completed_frame r.prim r.draw s
  refine ⟨_, hlead.run h, rfl, completed_hist r s, (mode_congr rfl rfl).trans (completed_mode r.draw ho), hbusy,
    hdone, herr, hwcol, hcrc, ?_⟩
  obtain ⟨p, n, d⟩ := r
  cases p with
  | start => exact ⟨rfl, rfl⟩
  | stop => exact ⟨rfl, rfl⟩
  | writeByte b => exact ⟨rfl, rfl⟩
  | readByteAck => exact ⟨rfl, rfl, List.getLast?_concat⟩
  | readByteNack => exact ⟨rfl, rfl, List.getLast?_concat⟩

/-! ### A primitive that is rejected (R173 to R176) -/

/-- Where the expansion of a rejected primitive leads: its poll makes one read. -/
theorem leads_rejected (hp : p ≠ .start) (hb : s.busy = false) (ho : s.opened = false) :
    Leads (accesses (p.expand 1)) s { reject (p.load s) with
      reads := s.reads ++ [statusByte (reject (p.load s))] ++ p.returned (p.load s).data } := by
  have hrequest := leads_request p hb
  rw [ctrlWrite_closed (by simp [hb]) (needsOpen_code hp) (by simp [ho])] at hrequest
  have hrun := (hrequest.append (leads_poll 1 _)).append (leads_result p (by simp [hb]))
  simpa [Primitive.expand, accesses] using hrun

/-- Settles O57: where the run leads (`leads_rejected`), and the fields that a rejection and the load
before it leave. -/
theorem primitivesRejectedFromIdle : Obligations.PrimitivesRejectedFromIdle := by
  intro p rest s hp hs hb ho h
  obtain ⟨hdone, _⟩ := statusByte_bits (reject (p.load s))
  have hrun := (leads_rejected hp hb ho).run h
  rw [length_accesses] at hrun
  refine ⟨_, hrun, load_hist p s, rfl, rfl, ?mode, rfl, ?data, statusByte (reject (p.load s)), hdone, ?reads⟩
  case mode => simp [State.mode, hs, ho]
  case data => cases p <;> rfl
  case reads =>
    rw [List.append_assoc]
    cases p <;> rfl

/-! ### A transaction (R179 to R181) -/

/-- A run of a primitive from the mode it is meant for. -/
theorem leads_primitive_done (r : PrimitiveRun) (hb : s.busy = false) (ho : s.opened = decide (r.prim ≠ .start)) :
    ∃ t, Leads r.turns s t ∧ PrimitiveDone r.prim r.draw s t ∧ t.done = true := by
  have hlegal : r.prim ≠ .start → s.opened = true := fun hp => by simp [ho, hp]
  obtain ⟨vs, hlead⟩ := leads_primitive r hb hlegal
  obtain ⟨hphase, hbusy, hdone⟩ := completed_ends r.prim r.draw s
  obtain ⟨herr, hwcol, hcrc⟩ := completed_frame r.prim r.draw s
  have hhist : (r.prim.completed r.draw s).hist = s.hist ++ [r.event] := by simp [completed_hist, ho]
  exact ⟨_, hlead, ⟨hphase, hbusy, completed_opened r.draw hlegal, hhist, herr, hwcol, hcrc⟩, hdone⟩

/-- Where a sequence of runs leads when each primitive comes in the mode it is meant for: the history gains
the events in program order, and every completion leaves DONE = 1. -/
theorem leads_sequence {rs : List PrimitiveRun} {o : Bool} (hs : s.phase = .none) (hb : s.busy = false)
    (hl : LegalFrom s.opened (rs.map PrimitiveRun.prim) o) :
    ∃ t, Leads (sequenceTurns rs) s t ∧ SequenceDone rs s t ∧ t.opened = o ∧
      (s.done = true ∨ rs ≠ [] → t.done = true) := by
  induction rs generalizing s with
  | nil => exact ⟨s, leads_nil s, sequenceDone_nil hs hb, hl, by simp⟩
  | cons r rs ih =>
    obtain ⟨ho, hl⟩ := hl
    obtain ⟨t, hlead, hr, hdone⟩ := leads_primitive_done r hb ho
    obtain ⟨u, hlead', hrs, hu, hlast⟩ := ih hr.phase hr.busy (hr.opened ▸ hl)
    exact ⟨u, hlead.append hlead', { hr.cons hrs with }, hu, fun _ => hlast (.inl hdone)⟩

/-- Byte primitives keep the transaction open until the stop. -/
theorem legal_bytes_stop {ps : List Primitive} (h : ps.all Primitive.isByte = true) :
    LegalFrom true (ps ++ [.stop]) false := by
  induction ps with
  | nil => simp [LegalFrom]
  | cons p ps ih =>
    obtain ⟨hp, hps⟩ := Bool.and_eq_true_iff.mp h
    have hstart : p ≠ .start := by rintro rfl; cases hp
    have hstop : p ≠ .stop := by rintro rfl; cases hp
    simpa [LegalFrom, hstart, hstop] using ih hps

theorem legal_of_isTransaction {ps : List Primitive} (h : isTransaction ps = true) : LegalFrom false ps false :=
  match ps, h with
  | .start :: rest, h => by
    obtain ⟨hlast, hbytes⟩ := Bool.and_eq_true_iff.mp h
    have hrest : rest.dropLast ++ [.stop] = rest := List.dropLast_append_getLast? _ (beq_iff_eq.mp hlast)
    exact ⟨by simp, hrest ▸ legal_bytes_stop hbytes⟩

/-- Settles O58: a transaction is a legal sequence from IDLE to IDLE (`legal_of_isTransaction`), and
`leads_sequence`. -/
theorem transactionHistory : Obligations.TransactionHistory := by
  intro rs rest s htrans hs hb ho h
  have hlegal : LegalFrom s.opened (rs.map PrimitiveRun.prim) false := by
    rw [ho]
    exact legal_of_isTransaction htrans
  obtain ⟨t, hlead, hdone, hopened, hlast⟩ := leads_sequence hs hb hlegal
  have hne : rs ≠ [] := by rintro rfl; cases htrans
  have hmode : t.mode = .idle := by simp [mode_of_no_phase hdone.phase, hopened]
  exact ⟨_, hlead.run h, hdone.hist, (mode_congr rfl rfl).trans hmode, hdone.busy, hlast (.inr hne), hdone.err,
    hdone.wcol, rfl⟩

end Sys2Proof.Machine
end

section
/-! The family 43_crc.md: the laws of the CRC function (R190, R191, R200), the rows that reach the CRC unit
(R192, R195, R197), and the host's compute routine (R199, R201). -/

namespace Sys2Proof.Machine

/-! ### One shift (R190) -/

theorem crcShifts_eq_iterate (n : Nat) (v : Byte) : crcShifts n v = crcShift^[n] v := by
  induction n generalizing v with
  | zero => rfl
  | succ n ih => exact ih (crcShift v)

/-- The top bit of a value goes to bit 0: the polynomial is odd, and the bit shifted in is 0. -/
theorem crcShift_bit_zero (v : Byte) : (crcShift v).getLsbD 0 = v.getLsbD 7 := by
  unfold crcShift
  cases hv : v.getLsbD 7 with
  | false => simp
  | true => simp [crcPoly]

theorem crcShift_bit_succ (v : Byte) {k : Nat} (hk : k + 1 < 8) :
    (crcShift v).getLsbD (k + 1) = (v.getLsbD k ^^ (v.getLsbD 7 && crcPoly.getLsbD (k + 1))) := by
  have hget : v.getLsbD k = v[k] := BitVec.getLsbD_eq_getElem _
  unfold crcShift
  cases hv : v.getLsbD 7 with
  | false => simp [hk, hget]
  | true => simp [hk, hget]

/-- A shift can be undone: its bit 0 says whether the polynomial was XORed in. -/
theorem crcShift_injective : Function.Injective crcShift := by
  intro v w h
  have htop : v.getLsbD 7 = w.getLsbD 7 := by rw [← crcShift_bit_zero, h, crcShift_bit_zero]
  apply BitVec.eq_of_getLsbD_eq
  intro k hk
  by_cases hlast : k = 7
  · rw [hlast, htop]
  · have hk' : k + 1 < 8 := by omega
    have hbit := congrArg (BitVec.getLsbD · (k + 1)) h
    simpa only [crcShift_bit_succ _ hk', htop, Bool.xor_left_inj] using hbit

/-! ### The step and the fold (R190, R191, R200) -/

theorem crc8Step_eq_step_xor_zero (a b : Byte) : crc8Step a b = crc8Step (a ^^^ b) 0x00#8 := by
  rw [crc8Step, crc8Step, BitVec.xor_zero]

theorem crc8Step_self (a : Byte) : crc8Step a a = 0x00#8 := by
  rw [crc8Step, BitVec.xor_self]
  rfl

theorem crc8Step_xor (a b c : Byte) : crc8Step (a ^^^ c) b = crc8Step a b ^^^ crc8Step c 0x00#8 := by
  calc crc8Step (a ^^^ c) b
      = crcShifts 8 ((a ^^^ b) ^^^ c) := by rw [crc8Step, BitVec.xor_assoc, BitVec.xor_comm c b, BitVec.xor_assoc]
    _ = crc8Step a b ^^^ crc8Step c 0x00#8 := by rw [crcShifts_xor, crc8Step, crc8Step, BitVec.xor_zero]

theorem crc8Step_injective (a : Byte) : Function.Injective (crc8Step a) := by
  intro b c h
  rw [crc8Step, crc8Step, crcShifts_eq_iterate, crcShifts_eq_iterate] at h
  exact (BitVec.xor_right_inj a).mp (crcShift_injective.iterate 8 h)

theorem crcFold_append (a : Byte) (bytes bytes' : List Byte) :
    crcFold a (bytes ++ bytes') = crcFold (crcFold a bytes) bytes' := List.foldl_append

theorem crcCompute_append (bytes bytes' : List Byte) :
    crcCompute (bytes ++ bytes') = crcFold (crcCompute bytes) bytes' := crcFold_append crcSeed bytes bytes'

theorem crcCompute_zeros (n : Nat) : crcCompute (List.replicate n 0x00#8) = 0x00#8 := by
  induction n with
  | zero => rfl
  | succ n ih =>
    have hstep : crc8Step crcSeed 0x00#8 = crcSeed := crc8Step_self 0x00#8
    rwa [crcCompute, List.replicate_succ, crcFold_cons, hstep]

/-- Settles O36. A byte equal to the running value clears it (`crc8Step_self`), hence the residue; a step is
the exclusive or and then eight shifts, each linear (`crcShifts_xor`) and injective (`crcShift_injective`). -/
theorem crcFunctionLaws : Obligations.CrcFunctionLaws := by
  refine ⟨crc8Step_eq_step_xor_zero, ⟨crc8Step_self 0x00#8, crcCompute_zeros⟩, crc8Step_xor, crcCompute_append,
    fun s => ?residue, fun a => Finite.injective_iff_bijective.mp (crc8Step_injective a)⟩
  case residue =>
    rw [crcCompute_append]
    exact crc8Step_self (crcCompute s)

/-! ### The rows of the CRC unit (R192, R195, R197) -/

/-- Settles O33: the row sets CRC_ACC to the seed, whatever the state is. -/
theorem crcInitSeedsAccumulator : Obligations.CrcInitSeedsAccumulator :=
  ⟨fun _ h => decode_of_crcCtrl_word (d := 0x01#8) h, exec_crcInit⟩

/-- Settles O34: the eight shifts of a step are the iterate of one (`crcShifts_eq_iterate`). -/
theorem crcFeedStepsAccumulator : Obligations.CrcFeedStepsAccumulator := by
  refine ⟨decode_write 0x5#3, fun b s => ?_⟩
  rw [exec_crcFeed, crc8Step, crcShifts_eq_iterate]
  rfl

/-- Settles O35: the seed, where reset and CRC_INIT leave CRC_ACC, is `compute` of the empty list. -/
theorem rdCrcAccReturnsAccumulator : Obligations.RdCrcAccReturnsAccumulator := by
  refine ⟨fun _ h => decode_of_read_word (off := 0x6#3) h, exec_rdCrcAcc, resetBlock_crcAcc,
    fun s t h => ?_⟩
  obtain rfl : setCrcAcc crcSeed s = t := by simpa using h
  exact ⟨setCrcAcc_crcAcc s crcSeed, setCrcAcc_crcAcc s crcSeed⟩

/-! ### The compute routine (R199, R201) -/

theorem leads_crcInit (s : State) : Leads (accesses [.crcInit]) s (setCrcAcc crcSeed s) :=
  leads_access fun _ _ => exec_crcInit _

theorem leads_crcFeed (b : Byte) (s : State) :
    Leads (accesses [.crcFeed b]) s (setCrcAcc (crc8Step s.crcAcc b) s) :=
  leads_access fun _ _ => exec_crcFeed _ b

theorem leads_rdCrcAcc (s : State) : Leads (accesses [.rdCrcAcc]) s (answer s.crcAcc s) :=
  leads_access fun _ _ => exec_rdCrcAcc _

theorem leads_crcFeeds (bytes : List Byte) (s : State) :
    Leads (accesses (bytes.map Instr.crcFeed)) s (setCrcAcc (crcFold s.crcAcc bytes) s) := by
  induction bytes generalizing s with
  | nil => exact leads_nil s
  | cons b bytes ih => exact (leads_crcFeed b s).append (ih _)

/-- The routine's accesses in a row: CRC_INIT, the feeds, and the read of what they left. -/
theorem leads_crcCompute (bytes : List Byte) (s : State) :
    Leads (accesses (crcComputeAccesses bytes)) s (answer (crcCompute bytes) (setCrcAcc (crcCompute bytes) s)) := by
  have hparts : accesses (crcComputeAccesses bytes) =
      accesses [.crcInit] ++ accesses (bytes.map Instr.crcFeed) ++ accesses [.rdCrcAcc] := by
    simp [crcComputeAccesses, accesses]
  rw [hparts]
  exact ((leads_crcInit s).append (leads_crcFeeds bytes _)).append (leads_rdCrcAcc _)

/-- Settles O37: where the routine leads (`leads_crcCompute`), from the agenda it is scripted on. -/
theorem crcComputeRoutine : Obligations.CrcComputeRoutine := by
  intro bytes rest s h
  have hlen : (accesses (crcComputeAccesses bytes)).length = bytes.length + 2 := by
    simp [length_accesses, crcComputeAccesses]
  have hrun := (leads_crcCompute bytes s).run h
  rwa [hlen] at hrun

/-- Settles O38: where the feeds alone lead (`leads_crcFeeds`), from the value CRC_ACC holds. -/
theorem feedsWithoutInitContinue : Obligations.FeedsWithoutInitContinue := by
  intro bytes rest s h
  have hrun := (leads_crcFeeds bytes s).run h
  rwa [length_accesses, List.length_map] at hrun

end Sys2Proof.Machine
end

section
/-! The family 44_bus_transactions.md: where one round of a sample leads (R215 to R219), and the history of a
sample (R220). -/

namespace Sys2Proof.Machine

variable {s : State} {trig read : List PrimitiveRun} {tr : Byte}

theorem leads_idle (s : State) : Leads [idleTurn] s s := fun _ _ => runSteps_one rfl

/-- Turns without an access lead nowhere, however many they are. -/
theorem leads_idles (n : Nat) (s : State) : Leads (List.replicate n idleTurn) s s := by
  induction n with
  | zero => exact leads_nil s
  | succ n ih => exact (leads_idle s).append ih

/-- Where the trigger, the settle delay and the read lead from IDLE: to IDLE, with the events of both
transactions (R215 to R217). -/
theorem leads_trigger_settle_read (htrig : trig.map PrimitiveRun.prim = sensorTrigger tr)
    (hread : read.map PrimitiveRun.prim = sensorRead) (hs : s.phase = .none) (hb : s.busy = false)
    (ho : s.opened = false) :
    ∃ t, Leads (sequenceTurns trig ++ settle ++ sequenceTurns read) s t ∧ SequenceDone (trig ++ read) s t ∧
      t.opened = false := by
  have hltrig : LegalFrom s.opened (trig.map PrimitiveRun.prim) false := by
    rw [ho, htrig]
    exact legal_sensorTrigger tr
  obtain ⟨t, hleadTrig, ht, hto, -⟩ := leads_sequence hs hb hltrig
  have hlread : LegalFrom t.opened (read.map PrimitiveRun.prim) false := by
    rw [hto, hread]
    exact legal_sensorRead
  obtain ⟨u, hleadRead, hu, huo, -⟩ := leads_sequence ht.phase ht.busy hlread
  have hlead := (hleadTrig.append (leads_idles Config.tConv t)).append hleadRead
  have hhist : u.hist = s.hist ++ (trig ++ read).map PrimitiveRun.event := by
    rw [hu.hist, ht.hist, List.map_append, List.append_assoc]
  exact ⟨u, hlead, ⟨hu.phase, hu.busy, hhist, hu.err.trans ht.err, hu.wcol.trans ht.wcol,
    hu.crcAcc.trans ht.crcAcc⟩, huo⟩

/-- Where a round leads from IDLE: its check reaches the CRC unit and the host only, so the engine is where
the read's stop left it, whatever the verdict (R218, R219). -/
theorem leads_round (htrig : trig.map PrimitiveRun.prim = sensorTrigger tr)
    (hread : read.map PrimitiveRun.prim = sensorRead) (hs : s.phase = .none) (hb : s.busy = false)
    (ho : s.opened = false) :
    ∃ t, Leads (roundTurns trig read) s t ∧ t.phase = .none ∧ t.busy = false ∧ t.opened = false ∧
      t.hist = s.hist ++ (trig ++ read).map PrimitiveRun.event := by
  obtain ⟨t, hlead, ht, hto⟩ := leads_trigger_settle_read htrig hread hs hb ho
  obtain ⟨_, r, _, hr⟩ := events_of_sensorRead hread
  have hturns : roundTurns trig read = sequenceTurns trig ++ settle ++ sequenceTurns read ++
      accesses (crcComputeAccesses [r.high, r.low]) := by
    rw [roundTurns, hr]
    rfl
  rw [hturns]
  exact ⟨_, hlead.append (leads_crcCompute _ t), ht.phase, ht.busy, hto, ht.hist⟩

/-- A round has ten phases: four of the trigger and six of the read. -/
theorem length_round (htrig : trig.map PrimitiveRun.prim = sensorTrigger tr)
    (hread : read.map PrimitiveRun.prim = sensorRead) : (trig ++ read).length = 10 := by
  have h4 : trig.length = 4 := by simpa [sensorTrigger] using congrArg List.length htrig
  have h6 : read.length = 6 := by simpa [sensorRead] using congrArg List.length hread
  rw [List.length_append, h4, h6]

/-- Settles O59: two rounds one after the other (`leads_round`), with ten events each (`length_round`). -/
theorem sampleHistory : Obligations.SampleHistory := by
  intro trigT readT trigH readH rest s htrigT hreadT htrigH hreadH hs hb ho hagenda
  obtain ⟨t, hleadT, htp, htb, hto, hhistT⟩ := leads_round htrigT hreadT hs hb ho
  obtain ⟨u, hleadH, hup, -, huo, hhistH⟩ := leads_round htrigH hreadH htp htb hto
  have hrun := (hleadT.append hleadH).run (hagenda.trans (List.append_assoc ..).symm)
  have hhist : u.hist = s.hist ++ (trigT ++ readT ++ trigH ++ readH).map PrimitiveRun.event := by
    rw [hhistH, hhistT, List.append_assoc (trigT ++ readT), List.map_append (l₁ := trigT ++ readT),
      List.append_assoc]
  have hlen : ((trigT ++ readT ++ trigH ++ readH).map PrimitiveRun.event).length = 20 := by
    rw [List.length_map, List.append_assoc (trigT ++ readT), List.length_append,
      length_round htrigT hreadT, length_round htrigH hreadH]
  have hmode : u.mode = .idle := by simp [mode_of_no_phase hup, huo]
  exact ⟨_, _, _, hrun, hhist, rfl, hlen, (mode_congr rfl rfl).trans hmode, rfl⟩

end Sys2Proof.Machine
end

section
/-! The family 70_reset_and_hazards.md: reset and the action of its instant (R250, R251). -/

namespace Sys2Proof.Machine

variable {s : State}

/-- At a turn with reset asserted the turn's action is not looked at (R250; log 7). -/
theorem step_of_reset (h : (nextTurn s).reset = true) : step s = .next (resetBlock (turnTaken s)) := if_pos h

theorem mode_resetBlock (s : State) : (resetBlock s).mode = .idle := by
  rw [mode_of_no_phase (resetBlock_phase s), resetBlock_opened]
  rfl

/-- Settles O10: a turn with reset asserted only resets the block (`step_of_reset`), which leaves the
engine IDLE and every STATUS flag at 0. -/
theorem resetTakesPrecedence : Obligations.ResetTakesPrecedence := by
  intro s h
  exact ⟨resetBlock (turnTaken s), step_of_reset h, rfl, mode_resetBlock _, statusByte_resetBlock _⟩

end Sys2Proof.Machine
end

section
/-! The sample decodes of 95_test_vectors.md, as instances of the rows' patterns (30_encoding.md R73). -/

namespace Sys2Proof.Machine

/-- Settles O5: each word fits its row's pattern, and the bits outside the pattern are the row's operand or
are ignored. -/
theorem sampleWordsDecode : Obligations.SampleWordsDecode := by
  refine ⟨?start, ?cmdRsv, ?crcInit, ?crcCtrlNop, ?rdRsv, ?wrRsv, ?rdCtrl, ?crcFeed, ?wrData⟩
  case start => exact decode_of_ctrl_word (d := 0x01#8) rfl
  case cmdRsv => exact decode_of_reserved_word rfl
  case crcInit => exact decode_of_crcCtrl_word (d := 0x01#8) rfl
  case crcCtrlNop => exact decode_of_crcCtrl_word (d := 0x00#8) rfl
  case rdRsv => exact decode_of_reserved_read_word rfl
  case wrRsv => exact decode_of_reserved_write_word rfl
  case rdCtrl => exact decode_of_read_word (off := 0x0#3) rfl
  case crcFeed => exact decode_write 0x5#3 0x68#8
  case wrData => exact decode_write 0x2#3 0x78#8

end Sys2Proof.Machine
end
